-- ==== Sys2Proof/Word.lean ====
section
/-! DEFINITION. The three bit-vector types of the engine (R9, R20) and the block of 64 bytes. -/

namespace Sys2Proof

/-- A byte: an unsigned integer 0 to 255, bit 7 most significant (R9). -/
abbrev Byte := BitVec 8

/-- A word: an unsigned 32-bit integer, bit 31 most significant (R9); WORD_BITS of R7. -/
abbrev Word := BitVec 32

/-- A 64-bit count, the width of TOTAL_LENGTH and BITLEN (LEN_BITS of R7). -/
abbrev Word64 := BitVec 64

/-- A block: exactly BLOCK_BYTES = 64 bytes (R7, R110). -/
abbrev Block := Vector Byte 64

end Sys2Proof
end

