-- ==== Sys2Proof/Machine/Operands.lean ====
section
/-! DEFINITION. The conversions between bytes and wider values, all big-endian (R51 to R55, R100), and the reads and
writes of byte sequences that the rules' pseudocode uses (MemRead, MemWrite of R10). -/

namespace Sys2Proof.Machine

/-- `be32(b0, b1, b2, b3)`: the word whose most significant byte is b0, each byte zero-extended (R100). -/
def be32 (b0 b1 b2 b3 : Byte) : Word := b0 ++ b1 ++ b2 ++ b3

/-- `bytes32(w)`: the four bytes of a word, most significant first (R100). -/
def bytes32 (w : Word) : List Byte :=
  [w.extractLsb' 24 8, w.extractLsb' 16 8, w.extractLsb' 8 8, w.extractLsb' 0 8]

/-- `bytes64(v)`: the eight bytes of a 64-bit value, most significant first (R100, R52). -/
def bytes64 (v : Word64) : List Byte :=
  [v.extractLsb' 56 8, v.extractLsb' 48 8, v.extractLsb' 40 8, v.extractLsb' 32 8,
   v.extractLsb' 24 8, v.extractLsb' 16 8, v.extractLsb' 8 8, v.extractLsb' 0 8]

/-- `MemRead(p, off, n)` of R10: the n consecutive bytes of p from offset off, in order. -/
def memRead (p : List Byte) (off n : Nat) : List Byte := (p.drop off).take n

/-- `MemWrite(BUF, off, n, bs)` of R10: `BUF[off+j] <- bs[j]`, one byte at a time in increasing index order (R57).
BUF has no index above 63, and no rule writes one. -/
def memWrite (buf : Block) (off : Nat) : List Byte → Block
  | [] => buf
  | b :: bs => memWrite (buf.setIfInBounds off b) (off + 1) bs

/-- The first 64 bytes of a sequence that has them, as the block handed to COMPRESS (the slice p[k..k+63] of R10). -/
def blockOf (p : List Byte) (h : 64 ≤ p.length) : Block :=
  ⟨(p.take 64).toArray, by simp [h]⟩

/-- Word j of a block: `be32(blk[4j], blk[4j+1], blk[4j+2], blk[4j+3])` (R51, R131). -/
def blockWord (blk : Block) (j : Fin 16) : Word :=
  be32 (blk[4 * j.val]'(by omega)) (blk[4 * j.val + 1]'(by omega)) (blk[4 * j.val + 2]'(by omega)) (blk[4 * j.val + 3]'(by omega))

end Sys2Proof.Machine
end

