-- ==== Sys2Proof/Syntax.lean ====
section
/-! DEFINITION. The abstract commands (R70, R72): one constructor per row of spec/opcode_table.json. -/

namespace Sys2Proof

/-- The command type that the decoder yields and the meanings take (R79). The seven ILLEGAL rows of the table split the
opcode bytes 0x00 and 0x04 to 0xFF by their match and mask; each constructor carries the bits its row's mask leaves
free, so that every opcode byte is one term and no term is an opcode of another row. -/
inductive Instr where
  /-- INIT, the single byte 0x01: create a fresh Digest State (R73, R140). -/
  | init
  /-- ABSORB P, opcode 0x02: LEN is the payload's length (R71 format A, R75, R141). -/
  | absorb (payload : List Byte)
  /-- FINAL, the single byte 0x03: pad, compress, emit the digest (R74, R160). -/
  | final
  /-- ILLEGAL, match 0x00, mask 0xFF (R76). -/
  | illegal00
  /-- ILLEGAL, match 0x04, mask 0xFC: 0x04 to 0x07. -/
  | illegal04 (low : BitVec 2)
  /-- ILLEGAL, match 0x08, mask 0xF8: 0x08 to 0x0F. -/
  | illegal08 (low : BitVec 3)
  /-- ILLEGAL, match 0x10, mask 0xF0: 0x10 to 0x1F. -/
  | illegal10 (low : BitVec 4)
  /-- ILLEGAL, match 0x20, mask 0xE0: 0x20 to 0x3F. -/
  | illegal20 (low : BitVec 5)
  /-- ILLEGAL, match 0x40, mask 0xC0: 0x40 to 0x7F. -/
  | illegal40 (low : BitVec 6)
  /-- ILLEGAL, match 0x80, mask 0x80: 0x80 to 0xFF. -/
  | illegal80 (low : BitVec 7)
  deriving DecidableEq, Repr

/-- The commands of the table's ILLEGAL rows (R76). -/
def Instr.isIllegal : Instr → Bool
  | .init | .absorb _ | .final => false
  | .illegal00 | .illegal04 _ | .illegal08 _ | .illegal10 _ | .illegal20 _ | .illegal40 _ | .illegal80 _ => true

end Sys2Proof
end

