-- ==== Sys2Proof/WellFormed.lean ====
section
/-! DEFINITION. Which terms of Instr have an encoding. -/

namespace Sys2Proof

/-- A command is well formed when it can be written on CMD: the payload of an ABSORB has 0 to 2^32 - 1 bytes, the
range of LEN (R75, R141). The other rows constrain nothing that their types do not. -/
def Instr.wellFormed : Instr → Bool
  | .absorb p => decide (p.length < 2 ^ 32)
  | .init | .final => true
  | .illegal00 | .illegal04 _ | .illegal08 _ | .illegal10 _ | .illegal20 _ | .illegal40 _ | .illegal80 _ => true

end Sys2Proof
end

