-- ==== Sys2Proof/Decode.lean ====
section
/-! DEFINITION. The decoder of CMD (R70 to R80), total on any byte sequence, and the encoder written from the same
tables. -/

namespace Sys2Proof

open Sys2Proof.Machine (be32 bytes32 memRead)

/-- What the decoder answers for the bytes at the front of CMD (R79): a command with the bytes left behind it, or that
it must wait for more bytes (R80). It rejects nothing: an illegal opcode is the command ILLEGAL (R76). -/
inductive Decoded where
  | wait
  | command (i : Instr) (rest : List Byte)
  deriving DecidableEq, Repr

/-- ABSORB, from the bytes after its opcode: the four LEN bytes, most significant first, then LEN payload bytes (R75,
R79). It waits while any of them is missing. -/
def decodeAbsorb : List Byte → Decoded
  | b1 :: b2 :: b3 :: b4 :: q =>
    let len := (be32 b1 b2 b3 b4).toNat
    if q.length < len then .wait else .command (.absorb (memRead q 0 len)) (q.drop len)
  | _ => .wait

/-- The command of an opcode byte that is none of 0x01, 0x02, 0x03: the table's ILLEGAL rows, by match and mask. -/
def illegalOf (op : Byte) : Instr :=
  if op &&& 0xFF = 0x00 then .illegal00
  else if op &&& 0xFC = 0x04 then .illegal04 (op.extractLsb' 0 2)
  else if op &&& 0xF8 = 0x08 then .illegal08 (op.extractLsb' 0 3)
  else if op &&& 0xF0 = 0x10 then .illegal10 (op.extractLsb' 0 4)
  else if op &&& 0xE0 = 0x20 then .illegal20 (op.extractLsb' 0 5)
  else if op &&& 0xC0 = 0x40 then .illegal40 (op.extractLsb' 0 6)
  else .illegal80 (op.extractLsb' 0 7)

/-- The decoder algorithm of R79. It looks at no engine state. -/
def decode : List Byte → Decoded
  | [] => .wait
  | op :: q =>
    if op = 0x01 then .command .init q
    else if op = 0x03 then .command .final q
    else if op = 0x02 then decodeAbsorb q
    else .command (illegalOf op) q

/-- The opcode byte of a command (R72 and the table's match values): a row's fixed bits above its free bits. -/
def opcodeOf : Instr → Byte
  | .init => 0x01
  | .absorb _ => 0x02
  | .final => 0x03
  | .illegal00 => 0x00
  | .illegal04 low => 1#6 ++ low
  | .illegal08 low => 1#5 ++ low
  | .illegal10 low => 1#4 ++ low
  | .illegal20 low => 1#3 ++ low
  | .illegal40 low => 1#2 ++ low
  | .illegal80 low => 1#1 ++ low

/-- The bytes of a command on CMD: format A for ABSORB, format N for every other (R71). -/
def encode : Instr → List Byte
  | .absorb p => opcodeOf (.absorb p) :: (bytes32 (BitVec.ofNat 32 p.length) ++ p)
  | i => [opcodeOf i]

/-- One row of spec/opcode_table.json: it selects an opcode byte `op` when `op and mask = match` (the note on the
machine-readable table in spec/30_encoding.md). -/
structure OpcodeRow where
  mnemonic : String
  pattern : Byte
  mask : Byte
  deriving DecidableEq, Repr

/-- Whether a row selects an opcode byte. -/
def OpcodeRow.selects (r : OpcodeRow) (op : Byte) : Bool := op &&& r.mask == r.pattern

/-- The ten rows of spec/opcode_table.json, in its order. -/
def opcodeTable : List OpcodeRow :=
  [⟨"INIT", 0x01, 0xFF⟩, ⟨"ABSORB", 0x02, 0xFF⟩, ⟨"FINAL", 0x03, 0xFF⟩, ⟨"ILLEGAL", 0x00, 0xFF⟩,
   ⟨"ILLEGAL", 0x04, 0xFC⟩, ⟨"ILLEGAL", 0x08, 0xF8⟩, ⟨"ILLEGAL", 0x10, 0xF0⟩, ⟨"ILLEGAL", 0x20, 0xE0⟩,
   ⟨"ILLEGAL", 0x40, 0xC0⟩, ⟨"ILLEGAL", 0x80, 0x80⟩]

/-- The row of the table a command belongs to, by its place there. -/
def rowIndex : Instr → Fin 10
  | .init => 0
  | .absorb _ => 1
  | .final => 2
  | .illegal00 => 3
  | .illegal04 _ => 4
  | .illegal08 _ => 5
  | .illegal10 _ => 6
  | .illegal20 _ => 7
  | .illegal40 _ => 8
  | .illegal80 _ => 9

/-- The table's row of a command. -/
def rowOf (i : Instr) : OpcodeRow := opcodeTable[(rowIndex i).val]'(rowIndex i).isLt

/-- The table's mnemonic of a command. -/
def mnemonicOf (i : Instr) : String := (rowOf i).mnemonic

/-- How many bytes the command at the front of q has, once the header that says so is present (R70, R71). -/
def commandLength : List Byte → Nat
  | op :: b1 :: b2 :: b3 :: b4 :: _ => if op = 0x02 then 5 + (be32 b1 b2 b3 b4).toNat else 1
  | _ => 1

/-- Byte k of an instruction whose bits are w, numbered as the table numbers them: bits 8k+7 to 8k. -/
def tableByte (w k : Nat) : Byte := BitVec.ofNat 8 (w >>> (8 * k))

/-- The n bytes of w from byte k on. -/
def tableBytesFrom (w : Nat) : Nat → Nat → List Byte
  | _, 0 => []
  | k, n + 1 => tableByte w k :: tableBytesFrom w (k + 1) n

/-- The bytes on CMD of an instruction given by its table bits: the bits given, every bit above them zero, as many bytes
as the command has. -/
def tableBytes (nbits w : Nat) : List Byte :=
  let given := tableBytesFrom w 0 ((nbits + 7) / 8)
  let n := commandLength (given ++ List.replicate 4 0)
  given.take n ++ List.replicate (n - given.length) 0

/-- The instruction the decoder reads from table bits. -/
def decodeTableWord (nbits w : Nat) : Option Instr :=
  match decode (tableBytes nbits w) with
  | .wait => none
  | .command i _ => some i

end Sys2Proof
end

