-- ==== Sys2Proof/Machine/Registers.lean ====
section
/-! DEFINITION. The register files of R20 as plain data: the running hash value, the working variables, and the
registers that live inside one command. -/

namespace Sys2Proof.Machine

/-- H[0..7], the running hash value: eight 32-bit registers (R21). -/
structure Hash where
  h0 : Word
  h1 : Word
  h2 : Word
  h3 : Word
  h4 : Word
  h5 : Word
  h6 : Word
  h7 : Word
  deriving DecidableEq, Repr, Inhabited

/-- The working variables a to h: eight 32-bit registers (R22). The lower-case h is the eighth of them, never H (C7). -/
structure Work where
  a : Word
  b : Word
  c : Word
  d : Word
  e : Word
  f : Word
  g : Word
  h : Word
  deriving DecidableEq, Repr, Inhabited

/-- The ephemeral registers of R20: written and read inside one command, with no defined value between commands. -/
structure Ephemeral where
  /-- BITLEN, the pre-padding bit length latched by FINAL (R27). -/
  bitLen : Word64
  /-- W[0..63], the message schedule (R23). -/
  w : Vector Word 64
  /-- a to h (R22). -/
  work : Work
  /-- T1, the source's temp1 (R20, R112). -/
  t1 : Word
  /-- T2, the source's temp2 (R20, R112). -/
  t2 : Word
  /-- i, the round index 0 to 64 (R28). -/
  i : Fin 65
  deriving DecidableEq, Repr, Inhabited

end Sys2Proof.Machine
end

