-- ==== Sys2Proof/Config.lean ====
section
/-! DEFINITION. What the spec leaves without a value. -/

namespace Sys2Proof.Config

/-- The values that the ephemeral registers BITLEN, W, a to h, T1, T2 and i hold between commands: a free value, one
for each command that has ended. DESIGN CHOICE (safe, notes/assumptions/1.md): R20 gives these registers "no defined
value between commands" and U7 says "any value", so nothing constrains it and no rule reads it. -/
opaque freeEphemeral : Nat → Sys2Proof.Machine.Ephemeral

end Sys2Proof.Config
end

