-- ==== Sys2Proof/Machine/State.lean ====
section
/-! DEFINITION. The state of one engine instance, as R20 lists it, the ways a step could stop, and the state after
reset (R34). -/

namespace Sys2Proof.Machine

/-- PHASE, where the Digest State is in its lifecycle (R26). The value 3 is reserved and no rule produces it, so it has
no constructor (U8 of spec/93_implementation_defined.md). -/
inductive Phase where
  /-- 0: created, accepts ABSORB and FINAL. -/
  | absorbing
  /-- 1: digest produced; H is immutable until INIT. -/
  | finalized
  /-- 2: an internal-consistency fault was raised; left by reset only. -/
  | faulted
  deriving DecidableEq, Repr

/-- The 2-bit value of PHASE (R20, R26). -/
def Phase.code : Phase → BitVec 2
  | .absorbing => 0
  | .finalized => 1
  | .faulted => 2

/-- The whole state of one engine (R20). K and H0 are constants and stand in Machine/Constants.lean. -/
structure State where
  /-- H[0..7], the running hash value (R21). -/
  hash : Hash
  /-- BUF[0..63], the partial-block buffer; only bytes below BUFLEN are architectural (R24, R36). -/
  buf : Block
  /-- BUFLEN, an integer 0 to 64 (R20, R24). -/
  bufLen : Fin 65
  /-- TOTAL_LENGTH, the unsigned 64-bit count of bytes absorbed (R25). -/
  totalLength : Word64
  /-- PHASE (R26). -/
  phase : Phase
  /-- BITLEN, W, a to h, T1, T2 and i (R22, R23, R27, R28). -/
  eph : Ephemeral
  /-- CMD: the bytes the host has sent and the engine has not executed, those of a partly received command among them,
  front first (R35). -/
  cmd : List Byte
  /-- RSP: the bytes the engine has emitted and the host has not taken, front first (R35). -/
  rsp : List Byte
  /-- The model's own field, not the spec's: how many free values of Config.freeEphemeral have been drawn. -/
  freeCount : Nat
  deriving DecidableEq, Repr

/-- Why a step could stop the machine: never. The engine's one fault, InternalConsistencyFault, does not stop it: R183
gives the state it leaves and R184 what every later command then does, so it is a next state with PHASE = FAULTED. The
type has no constructor, which is safe: nothing is cut short. -/
inductive Fault where
  deriving DecidableEq, Repr

/-- Why a step could have no meaning. -/
inductive Refusal where
  /-- Raised by an arm of exec for an instruction that has no meaning yet; safe, since nothing is then said of it. No
  arm raises it. -/
  | notModelled (mnemonic : String)
  deriving DecidableEq, Repr

/-- The values the ephemeral registers hold at reset. DESIGN CHOICE (unsafe, notes/assumptions/2.md): R34 says
"unspecified", and the model names zero. No rule reads them before writing them. -/
def Ephemeral.reset : Ephemeral where
  bitLen := 0
  w := Vector.replicate 64 0
  work := ⟨0, 0, 0, 0, 0, 0, 0, 0⟩
  t1 := 0
  t2 := 0
  i := 0

/-- The state after reset, with nothing on either channel (R34, R200, R201). -/
def State.reset : State where
  hash := initialHash
  buf := Vector.replicate 64 0
  bufLen := 0
  totalLength := 0
  phase := .absorbing
  eph := Ephemeral.reset
  cmd := []
  rsp := []
  freeCount := 0

end Sys2Proof.Machine
end

