-- ==== Sys2Proof/Machine/WordOps.lean ====
section
/-! DEFINITION. The word operations of spec/40_word_ops.md: total functions of their operands, none of which writes a
flag or raises an exception (R102). -/

namespace Sys2Proof.Machine

/-- `add32(x, y)`: addition modulo 2^32, the carry out of bit 31 recorded nowhere (R90). -/
def add32 (x y : Word) : Word := x + y

/-- `rotr(x, n)`: right circular rotation over 32 bits, the amount taken modulo 32 (R91). -/
def rotr (x : Word) (n : Nat) : Word := (x >>> (n % 32)) ||| (x <<< (32 - n % 32))

/-- `shr(x, n)`: logical right shift, zeros entering from the left (R92). -/
def shr (x : Word) (n : Nat) : Word := x >>> n

/-- `ch(e, f, g) = (e and f) xor ((not e) and g)` (R94; the bitwise operations are R93). -/
def ch (e f g : Word) : Word := (e &&& f) ^^^ (~~~e &&& g)

/-- `maj(a, b, c) = (a and b) xor (a and c) xor (b and c)` (R95). -/
def maj (a b c : Word) : Word := (a &&& b) ^^^ (a &&& c) ^^^ (b &&& c)

/-- The source's upper-case `S0`: rotations by 2, 13 and 22 (R96). -/
def upperS0 (a : Word) : Word := rotr a 2 ^^^ rotr a 13 ^^^ rotr a 22

/-- The source's upper-case `S1`: rotations by 6, 11 and 25 (R97). -/
def upperS1 (e : Word) : Word := rotr e 6 ^^^ rotr e 11 ^^^ rotr e 25

/-- The source's lower-case `s0`: rotations by 7 and 18, and a shift by 3 (R98). -/
def lowerS0 (x : Word) : Word := rotr x 7 ^^^ rotr x 18 ^^^ shr x 3

/-- The source's lower-case `s1`: rotations by 17 and 19, and a shift by 10 (R99). -/
def lowerS1 (x : Word) : Word := rotr x 17 ^^^ rotr x 19 ^^^ shr x 10

/-- `(TOTAL_LENGTH + n) mod 2^64` (R101 (a)); the wrap is the spec's decision D8. -/
def lengthAdd (t : Word64) (n : Nat) : Word64 := t + BitVec.ofNat 64 n

/-- `(TOTAL_LENGTH * 8) mod 2^64`: a shift left by 3 with the top three bits lost (R101 (b)). -/
def bitLength (t : Word64) : Word64 := t <<< 3

/-- The zero bytes of the padding, `z = (56 - (TOTAL_LENGTH mod 64)) mod 64` (R161 step 3); 64 is added before the
subtraction so that no natural-number subtraction is cut off. -/
def zeroCount (t : Word64) : Nat := (56 + 64 - t.toNat % 64) % 64

end Sys2Proof.Machine
end

