-- ==== Sys2Proof/Machine/Ops.lean ====
section
/-! DEFINITION. The named operations over the state that the commands share: the byte counter, the buffer, the response
channel, the end of a command, and the raise of an exception. -/

namespace Sys2Proof.Machine

/-- Step 1 of absorb: TOTAL_LENGTH counts n more bytes, modulo 2^64 (R25, R101, R142). -/
def addLength (n : Nat) (s : State) : State := { s with totalLength := lengthAdd s.totalLength n }

/-- `MemWrite(BUF, BUFLEN, m, bs)` and `BUFLEN <- BUFLEN + m` (R142). Every use keeps BUFLEN + m at most 64. -/
def appendBuf (bs : List Byte) (s : State) : State :=
  { s with buf := memWrite s.buf s.bufLen.val bs, bufLen := Fin.ofNat 65 (s.bufLen.val + bs.length) }

/-- `BUFLEN <- 0`, the observable content of "clear the buffer" (R36). -/
def clearBuf (s : State) : State := { s with bufLen := 0 }

/-- `PHASE <- p` (R26). -/
def setPhase (p : Phase) (s : State) : State := { s with phase := p }

/-- `BITLEN <- (TOTAL_LENGTH * 8) mod 2^64` (R27, R161 step 1). -/
def latchBitLen (s : State) : State := { s with eph := { s.eph with bitLen := bitLength s.totalLength } }

/-- The fresh Digest State that reset and INIT create: H0, an empty zeroed buffer, length 0, ABSORBING (R34, R140). -/
def freshDigest (s : State) : State :=
  { s with hash := initialHash, buf := Vector.replicate 64 0, bufLen := 0, totalLength := 0, phase := .absorbing }

/-- `emit(bs)`: append bytes to RSP, in order (R10, R35). -/
def emit (bs : List Byte) (s : State) : State := { s with rsp := s.rsp ++ bs }

/-- The end of a command: from here on the ephemeral registers have no defined value (R20), so they take the next free
value of Config. -/
def retire (s : State) : State :=
  { s with eph := Config.freeEphemeral s.freeCount, freeCount := s.freeCount + 1 }

/-- A command's one response and its end: a status byte and what follows it (R78). -/
def respond (status : Byte) (more : List Byte) (s : State) : State := retire (emit (status :: more) s)

/-- The status byte of a completed command (R78). -/
def statusOk : Byte := 0x00

/-- The four exceptions (R180). -/
inductive Exception where
  | illegalCommand
  | useAfterFinalize
  | internalConsistencyFault
  | engineFaulted
  deriving DecidableEq, Repr

/-- The cause code of an exception, which is the status byte emitted for it (R180). -/
def Exception.code : Exception → Byte
  | .illegalCommand => 0x01
  | .useAfterFinalize => 0x02
  | .internalConsistencyFault => 0x03
  | .engineFaulted => 0x04

/-- PHASE after an exception: FAULTED for InternalConsistencyFault, unchanged for the three refusals (R186). -/
def Exception.phaseAfter (e : Exception) (p : Phase) : Phase :=
  match e with
  | .internalConsistencyFault => .faulted
  | .illegalCommand | .useAfterFinalize | .engineFaulted => p

/-- Taking an exception, in full (R186): the status byte is emitted, PHASE changes only for InternalConsistencyFault,
nothing is saved and control goes nowhere. There is no return from it (R187). -/
def raise (e : Exception) (s : State) : State := respond e.code [] (setPhase (e.phaseAfter s.phase) s)

end Sys2Proof.Machine
end

