-- ==== Sys2Proof/Machine/Flags.lean ====
section
/-! DEFINITION. The checks on PHASE, the only flag-like state there is: no word operation writes a condition code (R26,
R102). Each says which exception, if any, a command raises before it touches any state, in the order of R185. -/

namespace Sys2Proof.Machine

/-- INIT is refused in FAULTED only (R140, R184). -/
def initRefusal : Phase → Option Exception
  | .absorbing => none
  | .finalized => none
  | .faulted => some .engineFaulted

/-- ABSORB is refused in FAULTED and in FINALIZED, whatever its payload (R141, R182, R184). -/
def absorbRefusal : Phase → Option Exception
  | .absorbing => none
  | .finalized => some .useAfterFinalize
  | .faulted => some .engineFaulted

/-- FINAL is refused in FAULTED and in FINALIZED (R160, R182, R184). -/
def finalRefusal : Phase → Option Exception
  | .absorbing => none
  | .finalized => some .useAfterFinalize
  | .faulted => some .engineFaulted

/-- The check of finalize's step 5: InternalConsistencyFault when BUFLEN is not 0 (R161, R183). -/
def paddingFault (bufLen : Fin 65) : Option Exception :=
  if bufLen = 0 then none else some .internalConsistencyFault

end Sys2Proof.Machine
end

