-- ==== Sys2Proof/Machine/Scheduler.lean ====
section
/-! DEFINITION. The message scheduler SCHED (R130 to R134) over the register file W, and the 16-word window form of it. -/

namespace Sys2Proof.Machine

/-- `W[j] <- be32(blk[4j], ..., blk[4j+3])` for the first n of the words 0 to 15 (R131). -/
def loadWords (blk : Block) : (n : Nat) → n ≤ 16 → Vector Word 64 → Vector Word 64
  | 0, _, w => w
  | n + 1, hn, w => (loadWords blk n (by omega) w).set n (blockWord blk ⟨n, by omega⟩) (by omega)

/-- The word that W[i] takes, i = 16 + j: `W[i-16] + s0(W[i-15]) + W[i-7] + s1(W[i-2])` modulo 2^32 (R132). -/
def expandedWord (w : Vector Word 64) (j : Fin 48) : Word :=
  add32 (add32 (add32 w[j.val] (lowerS0 w[j.val + 1])) w[j.val + 9]) (lowerS1 w[j.val + 14])

/-- The first n of the expansions i = 16, 17, ..., 63, in increasing order (R130, R132). -/
def expandWords : (n : Nat) → n ≤ 48 → Vector Word 64 → Vector Word 64
  | 0, _, w => w
  | n + 1, hn, w =>
    let w' := expandWords n (by omega) w
    w'.set (n + 16) (expandedWord w' ⟨n, by omega⟩) (by omega)

/-- SCHED(blk) over whatever W held before: words 0 to 15, then words 16 to 63 (R130). -/
def sched (blk : Block) (w : Vector Word 64) : Vector Word 64 :=
  expandWords 48 (by omega) (loadWords blk 16 (by omega) w)

/-- SCHED as the pure function of the block that R130 says it is. -/
def schedule (blk : Block) : Vector Word 64 := sched blk (Vector.replicate 64 0)

/-- The shift register of R134: the last 16 schedule words, oldest first. -/
abbrev Window := Vector Word 16

/-- The window that LOAD leaves: the 16 words of the block (R118, R131, R134). -/
def windowOf (blk : Block) : Window := Vector.ofFn fun j => blockWord blk j

/-- The word 16 places after the window's oldest: W[i] from a window that holds W[i-16] to W[i-1] (R132, R134). -/
def windowNext (v : Window) : Word := add32 (add32 (add32 v[0] (lowerS0 v[1])) v[9]) (lowerS1 v[14])

/-- One shift of the window: its oldest word leaves, the next schedule word enters (R134). -/
def windowShift (v : Window) : Window :=
  #v[v[1], v[2], v[3], v[4], v[5], v[6], v[7], v[8], v[9], v[10], v[11], v[12], v[13], v[14], v[15], windowNext v]

end Sys2Proof.Machine
end

