-- ==== Sys2Proof/Machine/Compression.lean ====
section
/-! DEFINITION. The compression core as the pure function of R110: INITWORK, ROUND, FEEDBACK, COMPRESS and
COMPRESS_BLOCKS, and the interleaved form that R120 allows. Machine/Sequencer.lean holds the iterative machine that
executes it over registers. -/

namespace Sys2Proof.Machine

/-- INITWORK: a from H[0] through h from H[7] (R111). -/
def initWork (hin : Hash) : Work := ⟨hin.h0, hin.h1, hin.h2, hin.h3, hin.h4, hin.h5, hin.h6, hin.h7⟩

/-- T1 of a round: `add32(h, S1(e), ch(e,f,g), K[i], W[i])` (R112). -/
def temp1 (v : Work) (k w : Word) : Word :=
  add32 (add32 (add32 (add32 v.h (upperS1 v.e)) (ch v.e v.f v.g)) k) w

/-- T2 of a round: `add32(S0(a), maj(a,b,c))` (R112). -/
def temp2 (v : Work) : Word := add32 (upperS0 v.a) (maj v.a v.b v.c)

/-- The simultaneous assignment that ends a round (R103, R112). -/
def rotateWork (v : Work) (t1 t2 : Word) : Work := ⟨add32 t1 t2, v.a, v.b, v.c, add32 v.d t1, v.e, v.f, v.g⟩

/-- ROUND with constant k and schedule word w (R112). -/
def roundWork (v : Work) (k w : Word) : Work := rotateWork v (temp1 v k w) (temp2 v)

/-- The first n rounds, i = 0 first, round i with K[i] and W[i] (R113). -/
def roundsWork (w : Vector Word 64) : (n : Nat) → n ≤ 64 → Work → Work
  | 0, _, v => v
  | n + 1, hn, v => roundWork (roundsWork w n (by omega) v) (roundConstants[n]'(by omega)) (w[n]'(by omega))

/-- FEEDBACK: the working variables added word-wise into H (R114). -/
def feedback (hin : Hash) (v : Work) : Hash :=
  ⟨add32 hin.h0 v.a, add32 hin.h1 v.b, add32 hin.h2 v.c, add32 hin.h3 v.d,
   add32 hin.h4 v.e, add32 hin.h5 v.f, add32 hin.h6 v.g, add32 hin.h7 v.h⟩

/-- COMPRESS(Hin, blk), a pure function of its two operands (R110, R117). -/
def compress (hin : Hash) (blk : Block) : Hash :=
  feedback hin (roundsWork (schedule blk) 64 (by omega) (initWork hin))

/-- COMPRESS_BLOCKS: the blocks folded in order, each from the result of the one before (R116). The operand is a list of
whole blocks, so a length that is no multiple of 64 has no meaning here, as U10 asks. -/
def compressBlocks (hin : Hash) (blks : List Block) : Hash := blks.foldl compress hin

/-- Round n of the interleaved form, with the window before it. Words 0 to 15 stand in the window from LOAD on (R118), so
rounds 0 to 15 shift nothing and read theirs there; from round 16 on, the window holds W[n-16] to W[n-1], one shift makes
W[n], and the round reads it as the newest word (R120, R134). DESIGN CHOICE (safe, notes/assumptions/21.md): U15 leaves open
when a word is made. No word past W[63] is made. -/
def interleavedRound (n : Nat) (hn : n < 64) (p : Window × Work) : Window × Work :=
  if h : n < 16 then (p.1, roundWork p.2 roundConstants[n] p.1[n])
  else
    let v := windowShift p.1
    (v, roundWork p.2 roundConstants[n] v[15])

/-- The first n rounds, each word from W[16] on made just before its round, and only the last 16 kept (R120, R134). -/
def interleaved : (n : Nat) → n ≤ 64 → Window × Work → Window × Work
  | 0, _, p => p
  | n + 1, hn, p => interleavedRound n hn (interleaved n (by omega) p)

/-- COMPRESS in the interleaved form of R120. -/
def compressInterleaved (hin : Hash) (blk : Block) : Hash :=
  feedback hin (interleaved 64 (by omega) (windowOf blk, initWork hin)).2

end Sys2Proof.Machine
end

