-- ==== Sys2Proof/Machine/Sequencer.lean ====
section
/-! DEFINITION. The iterative machine of R118: one ROUND datapath used 64 times per block under the round index i, over
the registers W, a to h, T1, T2 and i. -/

namespace Sys2Proof.Machine

/-- The sequencer state LOAD and EXPAND: W takes the schedule of the block (R118, R130). -/
def seqSchedule (blk : Block) (s : State) : State := { s with eph := { s.eph with w := sched blk s.eph.w } }

/-- INITWORK into the registers a to h, with i at 0; H is not changed (R111, R28). -/
def seqInitWork (s : State) : State := { s with eph := { s.eph with work := initWork s.hash, i := 0 } }

/-- The sequencer state RND: ROUND(i) for the index in register i, which selects K[i] and W[i], writes T1, T2 and a to
h, and goes up by one; at 64 the rounds are done and nothing changes (R28, R112, R113). -/
def seqRound (s : State) : State :=
  if hi : s.eph.i.val < 64 then
    let t1 := temp1 s.eph.work roundConstants[s.eph.i.val] s.eph.w[s.eph.i.val]
    let t2 := temp2 s.eph.work
    { s with
      eph := { s.eph with t1 := t1, t2 := t2, work := rotateWork s.eph.work t1 t2, i := ⟨s.eph.i.val + 1, by omega⟩ } }
  else s

/-- n sequencer steps in the state RND (R118). -/
def seqRounds : Nat → State → State
  | 0, s => s
  | n + 1, s => seqRound (seqRounds n s)

/-- The sequencer state FB: FEEDBACK into H, the one write to H that COMPRESS makes (R114, R118). -/
def seqFeedback (s : State) : State := { s with hash := feedback s.hash s.eph.work }

/-- `H <- COMPRESS(H, blk)` on the iterative machine: schedule, INITWORK, 64 rounds, FEEDBACK (R110, R118, R121). -/
def compressBlock (blk : Block) (s : State) : State := seqFeedback (seqRounds 64 (seqInitWork (seqSchedule blk s)))

end Sys2Proof.Machine
end

