-- ==== Sys2Proof/Machine/Streaming.lean ====
section
/-! DEFINITION. The streaming accumulator (spec/43_streaming.md): the procedure absorb(p), and the meanings of INIT and
ABSORB. -/

namespace Sys2Proof.Machine

/-- A buffer that has become full is compressed at once, and emptied (R142 step 2, R145). -/
def drainFull (s : State) : State :=
  if s.bufLen = 64 then clearBuf (compressBlock s.buf s) else s

/-- Step 2 of absorb: fill a partial buffer first. The pair is the state and the bytes of p not yet consumed (R142). -/
def fillPartial (p : List Byte) (s : State) : State × List Byte :=
  if s.bufLen = 0 then (s, p)
  else
    let m := min (64 - s.bufLen.val) p.length
    (drainFull (appendBuf (memRead p 0 m) s), p.drop m)

/-- Step 3 of absorb, the direct path: COMPRESS on successive 64-byte slices while 64 or more bytes remain (R142). The
first argument bounds the iterations. -/
def absorbDirect : Nat → List Byte → State → State × List Byte
  | 0, p, s => (s, p)
  | n + 1, p, s =>
    if h : 64 ≤ p.length then absorbDirect n (p.drop 64) (compressBlock (blockOf p h) s) else (s, p)

/-- Step 4 of absorb: store the tail, if there is one, from BUF[0] on; BUFLEN is 0 whenever there is one (R142, R143). -/
def storeTail (r : List Byte) (s : State) : State :=
  if r = [] then s else appendBuf r (clearBuf s)

/-- The procedure absorb(p): the four steps of R142 in their order. It reads no PHASE, emits nothing and cannot fail. -/
def absorb (p : List Byte) (s : State) : State :=
  let filled := fillPartial p (addLength p.length s)
  let direct := absorbDirect filled.2.length filled.2 filled.1
  storeTail direct.2 direct.1

/-- INIT: refused with EngineFaulted in FAULTED, else a fresh Digest State and the status 0x00 (R140). -/
def execInit (s : State) : Host.Outcome State Fault Refusal :=
  match initRefusal s.phase with
  | some e => .next (raise e s)
  | none => .next (respond statusOk [] (freshDigest s))

/-- ABSORB P: refused in FAULTED and FINALIZED, else absorb(P) and the status 0x00 (R141). -/
def execAbsorb (payload : List Byte) (s : State) : Host.Outcome State Fault Refusal :=
  match absorbRefusal s.phase with
  | some e => .next (raise e s)
  | none => .next (respond statusOk [] (absorb payload s))

end Sys2Proof.Machine
end

