-- ==== Sys2Proof/Machine/Finalizer.lean ====
section
/-! DEFINITION. The finalizer (spec/44_finalizer.md): padding through the absorb path, the internal-consistency check,
the digest, and the meaning of FINAL. -/

namespace Sys2Proof.Machine

/-- PAD_BYTE, the first padding byte (R7, R55). -/
def padByte : Byte := 0x80

/-- Step 3 of finalize: absorb z zero bytes, z from TOTAL_LENGTH as step 2 left it (R161). -/
def absorbZeros (s : State) : State := absorb (List.replicate (zeroCount s.totalLength) 0x00) s

/-- Step 4 of finalize: absorb the latched bit length as 8 bytes, most significant first (R52, R161). -/
def absorbBitLen (s : State) : State := absorb (bytes64 s.eph.bitLen) s

/-- Steps 1 to 4 of finalize, in order (R161): latch BITLEN, absorb 0x80, absorb the zeros, absorb the bit length. -/
def padAndAbsorb (s : State) : State := absorbBitLen (absorbZeros (absorb [padByte] (latchBitLen s)))

/-- The digest: the eight words of H, each big-endian, H[0] first (R53, R165). -/
def digestBytes (h : Hash) : List Byte :=
  bytes32 h.h0 ++ bytes32 h.h1 ++ bytes32 h.h2 ++ bytes32 h.h3 ++ bytes32 h.h4 ++ bytes32 h.h5 ++ bytes32 h.h6 ++ bytes32 h.h7

/-- FINAL: refused in FAULTED and FINALIZED; else finalize(), whose check raises InternalConsistencyFault, and then
PHASE = FINALIZED, the status 0x00 and the 32 digest bytes (R160, R161, R165). -/
def execFinal (s : State) : Host.Outcome State Fault Refusal :=
  match finalRefusal s.phase with
  | some e => .next (raise e s)
  | none =>
    let t := padAndAbsorb s
    match paddingFault t.bufLen with
    | some e => .next (raise e t)
    | none => .next (respond statusOk (digestBytes t.hash) (setPhase .finalized t))

end Sys2Proof.Machine
end

