-- ==== Sys2Proof/Machine/Illegal.lean ====
section
/-! DEFINITION. The meanings of the table's ILLEGAL rows: IllegalCommand is raised in every phase, whatever the byte's
free bits are, and nothing else happens (R76, R181, R185). The decoder has already consumed the one byte. -/

namespace Sys2Proof.Machine

/-- ILLEGAL, opcode 0x00 (R181). -/
def execIllegal00 (s : State) : Host.Outcome State Fault Refusal := .next (raise .illegalCommand s)

/-- ILLEGAL, opcode 0x04 to 0x07 (R181). -/
def execIllegal04 (_low : BitVec 2) (s : State) : Host.Outcome State Fault Refusal := .next (raise .illegalCommand s)

/-- ILLEGAL, opcode 0x08 to 0x0F (R181). -/
def execIllegal08 (_low : BitVec 3) (s : State) : Host.Outcome State Fault Refusal := .next (raise .illegalCommand s)

/-- ILLEGAL, opcode 0x10 to 0x1F (R181). -/
def execIllegal10 (_low : BitVec 4) (s : State) : Host.Outcome State Fault Refusal := .next (raise .illegalCommand s)

/-- ILLEGAL, opcode 0x20 to 0x3F (R181). -/
def execIllegal20 (_low : BitVec 5) (s : State) : Host.Outcome State Fault Refusal := .next (raise .illegalCommand s)

/-- ILLEGAL, opcode 0x40 to 0x7F (R181). -/
def execIllegal40 (_low : BitVec 6) (s : State) : Host.Outcome State Fault Refusal := .next (raise .illegalCommand s)

/-- ILLEGAL, opcode 0x80 to 0xFF (R181). -/
def execIllegal80 (_low : BitVec 7) (s : State) : Host.Outcome State Fault Refusal := .next (raise .illegalCommand s)

end Sys2Proof.Machine
end

