-- ==== Sys2Proof/Machine/Dispatch.lean ====
section
/-! DEFINITION. Dispatch of a decoded command to its meaning, one arm per constructor of Instr. -/

namespace Sys2Proof.Machine

/-- The meaning of a command (R70, R72). -/
def exec (i : Instr) (s : State) : Host.Outcome State Fault Refusal :=
  match i with
  | .init => Sys2Proof.Machine.execInit s
  | .absorb payload => Sys2Proof.Machine.execAbsorb payload s
  | .final => Sys2Proof.Machine.execFinal s
  | .illegal00 => Sys2Proof.Machine.execIllegal00 s
  | .illegal04 low => Sys2Proof.Machine.execIllegal04 low s
  | .illegal08 low => Sys2Proof.Machine.execIllegal08 low s
  | .illegal10 low => Sys2Proof.Machine.execIllegal10 low s
  | .illegal20 low => Sys2Proof.Machine.execIllegal20 low s
  | .illegal40 low => Sys2Proof.Machine.execIllegal40 low s
  | .illegal80 low => Sys2Proof.Machine.execIllegal80 low s

end Sys2Proof.Machine
end

