-- ==== Sys2Proof/Machine/Fetch.lean ====
section
/-! DEFINITION. Taking a command from CMD (R70). There is no program counter and no instruction fetch (R32). -/

namespace Sys2Proof.Machine

/-- What the decoder reads at the front of CMD; it does not depend on PHASE or any other state (R79). -/
def fetch (s : State) : Decoded := decode s.cmd

/-- CMD after a command's bytes are removed from its front (R70, R77). -/
def consume (rest : List Byte) (s : State) : State := { s with cmd := rest }

end Sys2Proof.Machine
end

