-- ==== Sys2Proof/Machine/Step.lean ====
section
/-! DEFINITION. One step of the engine: take one complete command from CMD and execute it, or wait. -/

namespace Sys2Proof.Machine

/-- One step (R70, R79, R80): the decoder takes the command at the front of CMD whole and the engine executes it; while
no command is complete the engine waits, and nothing changes. -/
def step (s : State) : Host.Outcome State Fault Refusal :=
  match fetch s with
  | .wait => .next s
  | .command i rest => exec i (consume rest s)

/-- The instruction with table bits w placed at the front of CMD, where step takes its next command. -/
def State.withFetchWord (s : State) (nbits w : Nat) : State := { s with cmd := tableBytes nbits w ++ s.cmd }

end Sys2Proof.Machine
end

