-- ==== Sys2Proof/Machine/HostEvents.lean ====
section
/-! DEFINITION. The host (R6): sending command bytes, taking response bytes, asserting reset; and what a run is (R210,
R211). None of it is a command. -/

namespace Sys2Proof.Machine

/-- The host appends bytes to CMD, in pieces of any size (R35, R210, R211). -/
def send (bs : List Byte) (s : State) : State := { s with cmd := s.cmd ++ bs }

/-- The reset event (R34, R200): a fresh Digest State in every phase, CMD emptied, RSP left for the host to read,
nothing emitted. The ephemeral registers are "unspecified" after it, so they take a free value. -/
def resetEvent (s : State) : State := retire { freshDigest s with cmd := [] }

/-- The host takes the byte at the front of RSP, if there is one; the only read with a side effect (R35, R58). -/
def takeByte (s : State) : Option (Byte × State) :=
  match s.rsp with
  | [] => none
  | b :: r => some (b, { s with rsp := r })

/-- What the host can do to the engine (R6, R211). -/
inductive HostEvent where
  | send (bs : List Byte)
  | reset
  | take
  deriving DecidableEq, Repr

/-- A run in progress (R210): the engine, and the bytes the host has already taken from RSP. -/
structure Run where
  state : State
  taken : List Byte
  deriving DecidableEq, Repr

/-- The observation of a run: every byte that has appeared on RSP, in order (R210). -/
def Run.observed (r : Run) : List Byte := r.taken ++ r.state.rsp

/-- A run begins with one reset (R202, R210). -/
def Run.start : Run := ⟨State.reset, []⟩

/-- A host event (R210, R211); taking from an empty RSP takes nothing. -/
def Run.host (e : HostEvent) (r : Run) : Run :=
  match e with
  | .send bs => { r with state := Sys2Proof.Machine.send bs r.state }
  | .reset => { r with state := resetEvent r.state }
  | .take =>
    match takeByte r.state with
    | none => r
    | some (b, s) => ⟨s, r.taken ++ [b]⟩

/-- Who moves next. The spec gives no timing, so a run is any interleaving; a reset that comes before the engine has run
the commands waiting in CMD discards them, and one that comes after does not (R211, U12). -/
inductive Move where
  | host (e : HostEvent)
  | engine
  deriving DecidableEq, Repr

/-- One move of a run. -/
def Run.move (m : Move) (r : Run) : Host.Outcome Run Fault Refusal :=
  match m with
  | .host e => .next (r.host e)
  | .engine =>
    match step r.state with
    | .next s => .next { r with state := s }
    | .fault f => .fault f
    | .refused f => .refused f

/-- The moves of a run, in order. -/
def Run.moves : List Move → Run → Host.Outcome Run Fault Refusal
  | [], r => .next r
  | m :: ms, r =>
    match r.move m with
    | .next r' => r'.moves ms
    | .fault f => .fault f
    | .refused f => .refused f

/-- Commands executed one after another, without their encodings (R59 (a)). -/
def execAll : List Instr → State → Host.Outcome State Fault Refusal
  | [], s => .next s
  | i :: is, s =>
    match exec i s with
    | .next t => execAll is t
    | .fault f => .fault f
    | .refused f => .refused f

/-- n steps of the engine, stopping at the first fault or refusal. -/
def stepN : Nat → State → Host.Outcome State Fault Refusal
  | 0, s => .next s
  | n + 1, s =>
    match step s with
    | .next t => stepN n t
    | .fault f => .fault f
    | .refused f => .refused f

/-- The engine executes every complete command at the front of CMD, in order (R210). Each takes at least one byte, so as
many steps as CMD has bytes are enough. -/
def executeReady (s : State) : Host.Outcome State Fault Refusal := stepN s.cmd.length s

/-- The decoder is waiting for bytes: CMD holds no complete command (R79, R80). -/
abbrev Waiting (s : State) : Prop := decode s.cmd = .wait

/-- The run is stuck: a partly received command whose bytes have not come (R80, R210). -/
abbrev Stuck (s : State) : Prop := Waiting s ∧ s.cmd ≠ []

/-- The run has ended well: CMD is empty, with no partly received command, and PHASE is not FAULTED (R210). -/
abbrev EndedWell (s : State) : Prop := s.cmd = [] ∧ s.phase ≠ .faulted

end Sys2Proof.Machine
end

