-- ==== Sys2Proof/Machine/Assembler.lean ====
section
/-! DEFINITION. The assembler syntax as terms (R81) and the pseudo-instructions (R83). -/

namespace Sys2Proof.Machine

/-- The operand forms of R81: printable ASCII characters, hexadecimal bytes, and a repetition. -/
inductive ByteExpr where
  | ascii (text : String)
  | hex (bytes : List Byte)
  | times (e : ByteExpr) (n : Nat)
  deriving DecidableEq, Repr

/-- The bytes an operand stands for: each character its one-byte ASCII code, with no terminator (R81). -/
def ByteExpr.bytes : ByteExpr → List Byte
  | .ascii text => text.toList.map fun c => BitVec.ofNat 8 c.toNat
  | .hex bs => bs
  | .times e n => (List.replicate n e.bytes).flatten

/-- A quoted string holds printable ASCII characters only, 0x20 to 0x7E (R81). -/
def ByteExpr.wellFormed : ByteExpr → Bool
  | .ascii text => text.toList.all fun c => decide (0x20 ≤ c.toNat) && decide (c.toNat ≤ 0x7e)
  | .hex _ => true
  | .times e _ => e.wellFormed

/-- The longest payload of one ABSORB, 2^32 - 1 bytes (R75). -/
def maxPayload : Nat := 2 ^ 32 - 1

/-- ABSORB of any byte sequence: consecutive ABSORB commands of at most 2^32 - 1 bytes each, in order (R75, R83). The
first argument bounds their number. -/
def absorbCommands : Nat → List Byte → List Instr
  | 0, p => [.absorb p]
  | n + 1, p =>
    if p.length ≤ maxPayload then [.absorb p]
    else .absorb (p.take maxPayload) :: absorbCommands n (p.drop maxPayload)

/-- One line of R81, and the pseudo-instruction HASH of R83. -/
inductive AsmLine where
  | init
  | absorb (e : ByteExpr)
  | final
  | byte (b : Byte)
  | reset
  | hash (e : ByteExpr)
  deriving DecidableEq, Repr

/-- `HASH <bytes>`: INIT, ABSORB <bytes>, FINAL (R83). -/
def hashCommands (p : List Byte) : List Instr := .init :: (absorbCommands p.length p ++ [.final])

/-- What the host does for a line: it sends the line's bytes, or asserts reset (R81). The assembler refuses a line whose
operand is no operand of R81. -/
def AsmLine.event : AsmLine → Option HostEvent
  | .init => some (.send (encode .init))
  | .absorb e => if e.wellFormed then some (.send ((absorbCommands e.bytes.length e.bytes).flatMap encode)) else none
  | .final => some (.send (encode .final))
  | .byte b => some (.send [b])
  | .reset => some .reset
  | .hash e => if e.wellFormed then some (.send ((hashCommands e.bytes).flatMap encode)) else none

end Sys2Proof.Machine
end

