-- ==== Sys2Proof/Machine/Reference.lean ====
section
/-! DEFINITION. The digest of a whole message without the streaming machine: pad up front, cut into blocks, fold (R116,
R162, R170; "write everything, then finalize", R83). Claims compare the machine with it; no step uses it. -/

namespace Sys2Proof.Machine

/-- The complete 64-byte blocks of a byte sequence, in order; bytes after the last of them are left out (R56, R144). The
first argument bounds their number. -/
def blocksFrom : Nat → List Byte → List Block
  | 0, _ => []
  | n + 1, p => if h : 64 ≤ p.length then blockOf p h :: blocksFrom n (p.drop 64) else []

/-- The complete blocks of a byte sequence (R56). -/
def blocksOf (p : List Byte) : List Block := blocksFrom p.length p

/-- The last (length mod 64) bytes of a byte sequence, those after its last complete block (R144). -/
def tailOf (p : List Byte) : List Byte := p.drop (64 * (p.length / 64))

/-- The padding in closed form: 0x80, (55 - L) mod 64 zeros, and the bit length, where L bytes are left in the last block
(R162, R170). -/
def padding (l : Nat) (bitLen : Word64) : List Byte :=
  padByte :: (List.replicate ((55 + 64 - l % 64) % 64) 0x00 ++ bytes64 bitLen)

/-- The digest of a message by the one-shot reading of the rules (R110, R116, R165, R170). -/
def referenceDigest (m : List Byte) : List Byte :=
  digestBytes (compressBlocks initialHash (blocksOf (m ++ padding m.length (BitVec.ofNat 64 (8 * m.length)))))

end Sys2Proof.Machine
end

