-- ==== Sys2Proof/Safety.lean ====
section
/-! DEFINITION. The vocabulary of the claims: the architectural part of a state, and the invariant between commands. -/

namespace Sys2Proof.Machine

/-- The valid bytes of BUF, BUF[0] to BUF[BUFLEN-1], in message order (R24, R36). -/
def State.valid (s : State) : List Byte := s.buf.toList.take s.bufLen.val

/-- The architectural state: what R20 calls persistent, with only the valid bytes of BUF (R36), and the channels. The
ephemeral registers and the bytes of BUF above BUFLEN are not in it (R36, R37). -/
structure Persistent where
  hash : Hash
  valid : List Byte
  bufLen : Fin 65
  totalLength : Word64
  phase : Phase
  cmd : List Byte
  rsp : List Byte
  deriving DecidableEq, Repr

/-- The architectural part of a state. -/
def State.persistent (s : State) : Persistent :=
  ⟨s.hash, s.valid, s.bufLen, s.totalLength, s.phase, s.cmd, s.rsp⟩

/-- The invariant between commands (R31): while ABSORBING, BUFLEN is 0 to 63 and equals TOTAL_LENGTH mod 64; when
FINALIZED both are 0. -/
abbrev BufferInv (s : State) : Prop :=
  (s.phase = .absorbing → s.bufLen.val ≤ 63 ∧ s.bufLen.val = s.totalLength.toNat % 64) ∧
  (s.phase = .finalized → s.bufLen.val = 0 ∧ s.totalLength.toNat % 64 = 0)

/-- The invariant together with a PHASE that is not FAULTED, which no run reaches (R169). -/
abbrev Safe (s : State) : Prop := BufferInv s ∧ s.phase ≠ .faulted

/-- ABSORB and FINAL are accepted, and the invariant of R31 holds. -/
abbrev Ready (s : State) : Prop :=
  s.phase = .absorbing ∧ s.bufLen.val ≤ 63 ∧ s.bufLen.val = s.totalLength.toNat % 64

/-- The bytes a command appended to RSP, for a next state reached from s. -/
def response (s : State) : Host.Outcome State Fault Refusal → List Byte
  | .next t => t.rsp.drop s.rsp.length
  | .fault _ => []
  | .refused _ => []

end Sys2Proof.Machine
end

