-- ==== Sys2Proof/Certificates/Slice0/Obligations.lean ====
section
/-! DEFINITION. The statements for the provers, each from a numbered rule of spec/ or derived from several. -/

open Sys2Proof Sys2Proof.Machine

/-! ### Encoding -/

/-- The worked encodings of spec/30_encoding.md, section 8, decode to the commands they stand for. -/
def Obligations.WorkedEncodingsDecode : Prop :=
  decode [0x01] = .command .init [] ∧
  decode [0x02, 0x00, 0x00, 0x00, 0x00] = .command (.absorb []) [] ∧
  decode [0x02, 0x00, 0x00, 0x00, 0x03, 0x61, 0x62, 0x63] = .command (.absorb [0x61, 0x62, 0x63]) [] ∧
  decode ([0x02, 0x00, 0x00, 0x01, 0x00] ++ List.replicate 256 0x00) = .command (.absorb (List.replicate 256 0x00)) [] ∧
  decode [0x03] = .command .final [] ∧
  decode [0xff] = .command (.illegal80 0x7f) [] ∧
  (hashCommands (ByteExpr.ascii "abc").bytes).flatMap encode =
    [0x01, 0x02, 0x00, 0x00, 0x00, 0x03, 0x61, 0x62, 0x63, 0x03]

/-- R71, R72, R75, R79: what is encoded is what is decoded, with whatever bytes follow left on CMD. -/
def Obligations.DecodeOfEncodedCommand : Prop :=
  ∀ (i : Instr) (rest : List Byte), i.wellFormed = true → decode (encode i ++ rest) = .command i rest

/-- R71, R76, R79: a decoded command has an encoding, and its bytes are exactly the bytes taken. -/
def Obligations.EncodeOfDecodedCommand : Prop :=
  ∀ (q : List Byte) (i : Instr) (rest : List Byte),
    decode q = .command i rest → i.wellFormed = true ∧ q = encode i ++ rest

/-- R72 and the opcode table: the row of the decoded command selects the opcode byte, and no other row does. -/
def Obligations.DecoderFollowsOpcodeTable : Prop :=
  ∀ (op : Byte) (q : List Byte) (i : Instr) (rest : List Byte), decode (op :: q) = .command i rest →
    ∀ r ∈ opcodeTable, (r.selects op = true ↔ r = rowOf i)

/-- R79, R80: the decoder waits exactly when CMD is empty or holds an ABSORB whose LEN or payload is not all there. -/
def Obligations.DecoderWaitsForIncompleteAbsorb : Prop :=
  ∀ q : List Byte, decode q = .wait ↔
    q = [] ∨ ∃ q', q = 0x02 :: q' ∧
      (q'.length < 4 ∨ ∃ b1 b2 b3 b4 p, q' = b1 :: b2 :: b3 :: b4 :: p ∧
        p.length < b1.toNat * 2 ^ 24 + b2.toNat * 2 ^ 16 + b3.toNat * 2 ^ 8 + b4.toNat)

/-- R70, R80: bytes that arrive later do not change the command that was already complete. -/
def Obligations.LaterBytesKeepTheCommand : Prop :=
  ∀ (q more : List Byte) (i : Instr) (rest : List Byte),
    decode q = .command i rest → decode (q ++ more) = .command i (rest ++ more)

/-- R70, R79, R80: a step removes the decoded command from CMD and executes it. While the decoder waits a step changes
nothing; that waiting is a step is the model's choice (notes/assumptions/3.md). -/
def Obligations.StepRunsDecodedCommand : Prop :=
  ∀ s : State,
    (∀ (i : Instr) (rest : List Byte), decode s.cmd = .command i rest → step s = exec i { s with cmd := rest }) ∧
    (decode s.cmd = .wait → step s = .next s)

/-- R77: a command refused because of PHASE is consumed whole, an ABSORB with its LEN field and payload, and answers
its one status byte. -/
def Obligations.RefusedCommandConsumedWhole : Prop :=
  ∀ (s : State) (i : Instr) (rest : List Byte), i.wellFormed = true → i.isIllegal = false →
    s.cmd = encode i ++ rest → (s.phase = .faulted ∨ (s.phase = .finalized ∧ i ≠ .init)) →
    ∃ (e : Ephemeral) (n : Nat), step s = .next { s with
      cmd := rest
      rsp := s.rsp ++ [if s.phase = .faulted then 0x04 else 0x02]
      eph := e
      freeCount := n }

/-! ### Word operations -/

/-- R90, R92: addition modulo 2^32, a sum of several words reduced once, in whatever order they are added; and the
logical shift as a division. -/
def Obligations.SumsWrapAndShiftsDivide : Prop :=
  (∀ x y : Word, (add32 x y).toNat = (x.toNat + y.toNat) % 2 ^ 32 ∧ add32 x y = add32 y x) ∧
  (∀ x y z : Word, add32 (add32 x y) z = add32 x (add32 y z)) ∧
  (∀ v w x y z : Word, (add32 (add32 (add32 (add32 v w) x) y) z).toNat =
    (v.toNat + w.toNat + x.toNat + y.toNat + z.toNat) % 2 ^ 32) ∧
  (∀ (x : Word) (n : Nat), (shr x n).toNat = x.toNat / 2 ^ n)

/-- R91: bit j of rotr(x, n) is bit (j + n) mod 32 of x. -/
def Obligations.RotationMovesEachBit : Prop :=
  ∀ (x : Word) (n j : Nat), j < 32 → (rotr x n).getLsbD j = x.getLsbD ((j + n) % 32)

/-- R94, R95: ch takes the bit of f where e is 1 and of g where e is 0; maj takes the majority of the three bits. -/
def Obligations.ChooseAndMajorityBits : Prop :=
  (∀ (e f g : Word) (j : Nat), (ch e f g).getLsbD j = if e.getLsbD j then f.getLsbD j else g.getLsbD j) ∧
  (∀ (a b c : Word) (j : Nat),
    (maj a b c).getLsbD j = decide (2 ≤ (a.getLsbD j).toNat + (b.getLsbD j).toNat + (c.getLsbD j).toNat))

/-- R96 to R99: each bit of the four sigma functions; a shift brings in zeros where a rotation wraps round. -/
def Obligations.SigmaFunctionBits : Prop :=
  ∀ (x : Word) (j : Nat), j < 32 →
    (upperS0 x).getLsbD j =
      ((x.getLsbD ((j + 2) % 32) ^^ x.getLsbD ((j + 13) % 32)) ^^ x.getLsbD ((j + 22) % 32)) ∧
    (upperS1 x).getLsbD j =
      ((x.getLsbD ((j + 6) % 32) ^^ x.getLsbD ((j + 11) % 32)) ^^ x.getLsbD ((j + 25) % 32)) ∧
    (lowerS0 x).getLsbD j =
      ((x.getLsbD ((j + 7) % 32) ^^ x.getLsbD ((j + 18) % 32)) ^^ (decide (j + 3 < 32) && x.getLsbD (j + 3))) ∧
    (lowerS1 x).getLsbD j =
      ((x.getLsbD ((j + 17) % 32) ^^ x.getLsbD ((j + 19) % 32)) ^^ (decide (j + 10 < 32) && x.getLsbD (j + 10)))

/-- R100: be32 weighs its bytes big-endian, bytes32 is its inverse, and bytes64 writes a value most significant byte
first. -/
def Obligations.ByteWordConversions : Prop :=
  (∀ b0 b1 b2 b3 : Byte,
    (be32 b0 b1 b2 b3).toNat = b0.toNat * 2 ^ 24 + b1.toNat * 2 ^ 16 + b2.toNat * 2 ^ 8 + b3.toNat ∧
    bytes32 (be32 b0 b1 b2 b3) = [b0, b1, b2, b3]) ∧
  (∀ w : Word, ∃ b0 b1 b2 b3, bytes32 w = [b0, b1, b2, b3] ∧ be32 b0 b1 b2 b3 = w) ∧
  (∀ v : Word64, (bytes64 v).length = 8 ∧ (bytes64 v).foldl (fun n b => n * 256 + b.toNat) 0 = v.toNat)

/-- R101: TOTAL_LENGTH + n and TOTAL_LENGTH * 8, both modulo 2^64. For messages of 2^61 bytes or more the rule is the
spec's own decision D8. -/
def Obligations.LengthsWrap : Prop :=
  (∀ (t : Word64) (n : Nat), (lengthAdd t n).toNat = (t.toNat + n) % 2 ^ 64) ∧
  (∀ t : Word64, (bitLength t).toNat = (t.toNat * 8) % 2 ^ 64)

/-! ### Scheduler and compression core -/

/-- R130 to R132: SCHED's words 0 to 15 and the recurrence of words 16 to 63, whatever W held before. -/
def Obligations.SchedulerRecurrence : Prop :=
  ∀ (blk : Block) (old : Vector Word 64),
    (∀ (j : Nat) (hj : j < 16), (sched blk old)[j] =
      be32 (blk[4 * j]'(by omega)) (blk[4 * j + 1]'(by omega)) (blk[4 * j + 2]'(by omega)) (blk[4 * j + 3]'(by omega))) ∧
    (∀ (i : Nat) (_ : 16 ≤ i) (hi : i < 64), (sched blk old)[i] =
      add32 (add32 (add32 (sched blk old)[i - 16] (lowerS0 (sched blk old)[i - 15])) (sched blk old)[i - 7])
        (lowerS1 (sched blk old)[i - 2]))

/-- Making each schedule word from W[16] on just before its round and keeping only the last 16 changes no result, as R120 and
R134 infer from R112 and R132 (inferences the spec marks as its own). When a word is made is the model's choice among what
U15 leaves free (notes/assumptions/21.md). -/
def Obligations.InterleavedCompressAgrees : Prop :=
  ∀ (hin : Hash) (blk : Block), compressInterleaved hin blk = compress hin blk

/-- R112, R103: what ROUND(i) writes, each right-hand side reading the values from the start of the round, and that it
writes nothing else but the sequencer's index (R28). -/
def Obligations.RoundAssignments : Prop :=
  ∀ (s : State) (hi : s.eph.i.val < 64),
    let v := s.eph.work
    let t1 := add32 (add32 (add32 (add32 v.h (upperS1 v.e)) (ch v.e v.f v.g)) roundConstants[s.eph.i.val]) s.eph.w[s.eph.i.val]
    let t2 := add32 (upperS0 v.a) (maj v.a v.b v.c)
    let r := seqRound s
    r.eph.t1 = t1 ∧ r.eph.t2 = t2 ∧ r.eph.i.val = s.eph.i.val + 1 ∧
    r.eph.work.a = add32 t1 t2 ∧ r.eph.work.b = v.a ∧ r.eph.work.c = v.b ∧ r.eph.work.d = v.c ∧
    r.eph.work.e = add32 v.d t1 ∧ r.eph.work.f = v.e ∧ r.eph.work.g = v.f ∧ r.eph.work.h = v.g ∧
    r = { s with eph := { s.eph with t1 := r.eph.t1, t2 := r.eph.t2, work := r.eph.work, i := r.eph.i } }

/-- R111, R114: INITWORK loads a to h from H in order and leaves H; FEEDBACK adds a to h into H in the same order. -/
def Obligations.WorkLoadedAndFedBack : Prop :=
  ∀ s : State,
    ((seqInitWork s).eph.work = ⟨s.hash.h0, s.hash.h1, s.hash.h2, s.hash.h3, s.hash.h4, s.hash.h5, s.hash.h6, s.hash.h7⟩ ∧
      (seqInitWork s).hash = s.hash) ∧
    (seqFeedback s).hash =
      ⟨add32 s.hash.h0 s.eph.work.a, add32 s.hash.h1 s.eph.work.b, add32 s.hash.h2 s.eph.work.c,
       add32 s.hash.h3 s.eph.work.d, add32 s.hash.h4 s.eph.work.e, add32 s.hash.h5 s.eph.work.f,
       add32 s.hash.h6 s.eph.work.g, add32 s.hash.h7 s.eph.work.h⟩

/-- R110, R117, R118: the iterative machine computes the function COMPRESS of its two operands into H, and touches
nothing else but ephemeral registers other than BITLEN. -/
def Obligations.IterativeMachineComputesCompress : Prop :=
  ∀ (blk : Block) (s : State), ∃ e : Ephemeral, e.bitLen = s.eph.bitLen ∧
    compressBlock blk s = { s with hash := compress s.hash blk, eph := e }

/-- R29, R30: K[i] is the first 32 bits of the fractional part of the cube root of the prime number i (counted from 0),
and H0[j] the same of the square root: n is the root times 2^32, rounded down. The spec takes this definition from
general knowledge (G3 of spec/93_implementation_defined.md). -/
def Obligations.ConstantsAreRootFractions : Prop :=
  (∀ (i : Nat) (hi : i < 64), ∃ p n : Nat, p.Prime ∧ p.count Nat.Prime = i ∧
    n ^ 3 ≤ p * 2 ^ 96 ∧ p * 2 ^ 96 < (n + 1) ^ 3 ∧ roundConstants[i].toNat = n % 2 ^ 32) ∧
  (∀ (j : Nat) (hj : j < 8), ∃ p n : Nat, p.Prime ∧ p.count Nat.Prime = j ∧
    n ^ 2 ≤ p * 2 ^ 64 ∧ p * 2 ^ 64 < (n + 1) ^ 2 ∧
    (#v[initialHash.h0, initialHash.h1, initialHash.h2, initialHash.h3, initialHash.h4, initialHash.h5, initialHash.h6,
      initialHash.h7][j]).toNat = n % 2 ^ 32)

/-! ### INIT -/

/-- R140: INIT in every phase, with everything it leaves unchanged. -/
def Obligations.InitCreatesFreshDigest : Prop :=
  ∀ s : State,
    (s.phase ≠ .faulted → ∃ (e : Ephemeral) (n : Nat), exec .init s = .next { s with
      hash := initialHash
      buf := Vector.replicate 64 0x00
      bufLen := 0
      totalLength := 0
      phase := .absorbing
      rsp := s.rsp ++ [0x00]
      eph := e
      freeCount := n }) ∧
    (s.phase = .faulted → ∃ (e : Ephemeral) (n : Nat), exec .init s = .next { s with
      rsp := s.rsp ++ [0x04]
      eph := e
      freeCount := n })

/-- R140, R202: on a fresh Digest State INIT changes nothing but RSP, so two INITs in a row equal one. -/
def Obligations.InitRedundantOnFreshState : Prop :=
  ∀ s : State, s.phase = .absorbing → s.hash = initialHash → s.bufLen = 0 → s.totalLength = 0 →
    ∃ t, exec .init s = .next t ∧ t.persistent = { s.persistent with rsp := s.rsp ++ [0x00] }

/-! ### ABSORB -/

/-- R141, R142: from an engine that accepts it, ABSORB compresses the complete blocks of the valid bytes followed by the
payload, in order, and keeps the tail. This closed form is the spec's own inference from R142, its rule R144. -/
def Obligations.AbsorbAppendsToMessage : Prop :=
  ∀ (s : State) (p : List Byte), s.phase = .absorbing → s.bufLen.val ≤ 63 →
    ∃ t, exec (.absorb p) s = .next t ∧
      (blocksOf (s.valid ++ p)).length = (s.bufLen.val + p.length) / 64 ∧
      t.hash = compressBlocks s.hash (blocksOf (s.valid ++ p)) ∧
      t.bufLen.val = (s.bufLen.val + p.length) % 64 ∧
      t.valid = tailOf (s.valid ++ p) ∧
      t.totalLength = lengthAdd s.totalLength p.length ∧
      t.phase = .absorbing ∧ t.cmd = s.cmd ∧ t.rsp = s.rsp ++ [0x00]

/-- R142, R57, R21: a payload that completes no block is stored at BUF[BUFLEN] on; every other byte of BUF and H stay.
That the bytes above the stored ones stay too is the model's choice (notes/assumptions/8.md): R36 leaves them open. -/
def Obligations.AbsorbStoresShortPayload : Prop :=
  ∀ (s : State) (p : List Byte), s.phase = .absorbing → s.bufLen.val + p.length < 64 →
    ∃ t, exec (.absorb p) s = .next t ∧ t.hash = s.hash ∧ t.bufLen.val = s.bufLen.val + p.length ∧
      (∀ (j : Nat) (hj : j < p.length) (hb : s.bufLen.val + j < 64), t.buf[s.bufLen.val + j] = p[j]) ∧
      (∀ (k : Nat) (hk : k < 64), k < s.bufLen.val ∨ s.bufLen.val + p.length ≤ k → t.buf[k] = s.buf[k])

/-- R141, R142: what ABSORB leaves unchanged in every phase, and what a refused one does. -/
def Obligations.AbsorbFrame : Prop :=
  ∀ (s t : State) (p : List Byte), exec (.absorb p) s = .next t →
    t.phase = s.phase ∧ t.cmd = s.cmd ∧ (∃ c, t.rsp = s.rsp ++ [c]) ∧
    (s.phase ≠ .absorbing →
      t.hash = s.hash ∧ t.buf = s.buf ∧ t.bufLen = s.bufLen ∧ t.totalLength = s.totalLength)

/-- R146: absorbing zero bytes changes nothing, and the command only answers. -/
def Obligations.ZeroBytesAbsorbedChangeNothing : Prop :=
  ∀ s : State, s.bufLen.val ≤ 63 →
    absorb [] s = s ∧
    (s.phase = .absorbing → ∃ (e : Ephemeral) (n : Nat), exec (.absorb []) s = .next { s with
      rsp := s.rsp ++ [0x00]
      eph := e
      freeCount := n })

/-- R145: absorb never leaves the buffer full, and a payload that exactly completes the block leaves it empty. -/
def Obligations.BufferDrainedAtOnce : Prop :=
  ∀ (s : State) (p : List Byte),
    (absorb p s).bufLen.val ≤ 63 ∧ (s.bufLen.val + p.length = 64 → (absorb p s).bufLen.val = 0)

/-- R147: any partition of a byte sequence into consecutive payloads leaves the architectural state that one absorb of
the whole leaves, and FINAL then answers the same. -/
def Obligations.ChunkingInvariance : Prop :=
  ∀ (s : State) (chunks : List (List Byte)), s.bufLen.val ≤ 63 →
    (chunks.foldl (fun t p => absorb p t) s).persistent = (absorb chunks.flatten s).persistent ∧
    response s (exec .final (chunks.foldl (fun t p => absorb p t) s)) = response s (exec .final (absorb chunks.flatten s))

/-! ### FINAL -/

/-- R160, R161, R165, R166: from an engine that accepts it, FINAL compresses the valid bytes followed by the padding,
empties the buffer, counts the padding, and answers 0x00 and the 32 digest bytes of H. The padding is written in the closed
form that R162 infers from R161. -/
def Obligations.FinalEmitsDigest : Prop :=
  ∀ s : State, Ready s →
    ∃ t, exec .final s = .next t ∧
      t.hash = compressBlocks s.hash (blocksOf (s.valid ++ padding s.bufLen.val (bitLength s.totalLength))) ∧
      t.bufLen.val = 0 ∧
      t.totalLength = lengthAdd s.totalLength (padding s.bufLen.val (bitLength s.totalLength)).length ∧
      t.totalLength.toNat % 64 = 0 ∧
      t.phase = .finalized ∧ t.cmd = s.cmd ∧
      t.rsp = s.rsp ++ 0x00 :: digestBytes t.hash ∧ (digestBytes t.hash).length = 32

/-- The last block or blocks of a message with L bytes left in the buffer, as R170 infers them from R161 (an inference
the spec marks as its own). -/
def Obligations.PaddingLayout : Prop :=
  ∀ (left : List Byte) (bitLen : Word64), left.length ≤ 63 →
    (left.length ≤ 55 →
      (blocksOf (left ++ padding left.length bitLen)).map Vector.toList =
        [left ++ [0x80] ++ List.replicate (55 - left.length) 0x00 ++ bytes64 bitLen]) ∧
    (56 ≤ left.length →
      (blocksOf (left ++ padding left.length bitLen)).map Vector.toList =
        [left ++ [0x80] ++ List.replicate (63 - left.length) 0x00, List.replicate 56 0x00 ++ bytes64 bitLen])

/-- The zero count in closed form, the bounds of the padding, and that the padded length is the least multiple of 64 that
is at least the length plus 9, as R162 infers them from R161 (an inference the spec marks as its own). -/
def Obligations.ZeroFillClosedForm : Prop :=
  ∀ t : Word64,
    let l := t.toNat % 64
    let z := zeroCount (lengthAdd t 1)
    z = (55 + 64 - l) % 64 ∧ 9 ≤ 1 + z + 8 ∧ 1 + z + 8 ≤ 72 ∧
    (t.toNat + 1 + z + 8) % 64 = 0 ∧ t.toNat + 9 ≤ t.toNat + 1 + z + 8 ∧ t.toNat + 1 + z + 8 < t.toNat + 9 + 64

/-! ### Exceptions -/

/-- R183: InternalConsistencyFault, taken when the buffer is not empty after the padding. The hypothesis holds only in
states that violate the invariant of R31, which no run reaches (EveryRunStaysSafe). -/
def Obligations.InternalConsistencyFaultTaken : Prop :=
  ∀ s : State, s.phase = .absorbing → (padAndAbsorb s).bufLen ≠ 0 →
    ∃ (e : Ephemeral) (n : Nat), exec .final s = .next { padAndAbsorb s with
      phase := .faulted
      rsp := s.rsp ++ [0x03]
      eph := e
      freeCount := n }

/-- R181, R185: IllegalCommand, for every ILLEGAL row and in every phase: status 0x01 and no architectural change. -/
def Obligations.IllegalCommandTaken : Prop :=
  ∀ (i : Instr) (s : State), i.isIllegal = true →
    ∃ (e : Ephemeral) (n : Nat), exec i s = .next { s with
      rsp := s.rsp ++ [0x01]
      eph := e
      freeCount := n }

/-- R76, R181: in every phase an illegal opcode byte is consumed alone, and decoding resumes at the next byte. -/
def Obligations.IllegalByteConsumedAlone : Prop :=
  ∀ (s : State) (op : Byte) (q : List Byte), op = 0x00 ∨ 0x04 ≤ op.toNat → s.cmd = op :: q →
    ∃ (e : Ephemeral) (n : Nat), step s = .next { s with
      cmd := q
      rsp := s.rsp ++ [0x01]
      eph := e
      freeCount := n }

/-- R182: UseAfterFinalize, for ABSORB with any payload and for FINAL; INIT is not subject to it. -/
def Obligations.UseAfterFinalizeTaken : Prop :=
  ∀ s : State, s.phase = .finalized →
    (∀ (i : Instr) (p : List Byte), i = .absorb p ∨ i = .final →
      ∃ (e : Ephemeral) (n : Nat), exec i s = .next { s with
        rsp := s.rsp ++ [0x02]
        eph := e
        freeCount := n }) ∧
    (∃ t, exec .init s = .next t ∧ t.phase = .absorbing ∧ t.rsp = s.rsp ++ [0x00])

/-- R184: EngineFaulted, for INIT, ABSORB and FINAL; no command leaves FAULTED, and reset does. -/
def Obligations.EngineFaultedUntilReset : Prop :=
  ∀ s : State, s.phase = .faulted →
    (∀ i : Instr, i.isIllegal = false → ∃ (e : Ephemeral) (n : Nat), exec i s = .next { s with
      rsp := s.rsp ++ [0x04]
      eph := e
      freeCount := n }) ∧
    (∀ (i : Instr) (t : State), exec i s = .next t → t.phase = .faulted) ∧
    (resetEvent s).phase = .absorbing

/-! ### The whole machine -/

/-- R78, R185: every command answers exactly one response, a status byte followed by the 32 digest bytes if and only if
it was a FINAL that completed; and which status is answered when. -/
def Obligations.OneResponsePerCommand : Prop :=
  ∀ (i : Instr) (s t : State), exec i s = .next t → ∃ (c : Byte) (more : List Byte), t.rsp = s.rsp ++ c :: more ∧
    (c = 0x00 ∨ c = 0x01 ∨ c = 0x02 ∨ c = 0x03 ∨ c = 0x04) ∧
    (i = .final ∧ c = 0x00 → more = digestBytes t.hash ∧ more.length = 32) ∧
    (¬ (i = .final ∧ c = 0x00) → more = []) ∧
    (c = 0x01 ↔ i.isIllegal = true) ∧
    (c = 0x04 ↔ i.isIllegal = false ∧ s.phase = .faulted) ∧
    (c = 0x02 ↔ i.isIllegal = false ∧ i ≠ .init ∧ s.phase = .finalized) ∧
    (c = 0x03 ↔ i = .final ∧ s.phase = .absorbing ∧ t.phase = .faulted)

/-- R12, R186: a refused command, one answered 0x01, 0x02 or 0x04, changes no architectural state but RSP. -/
def Obligations.RefusalsChangeNothing : Prop :=
  ∀ (i : Instr) (s t : State) (c : Byte), exec i s = .next t → t.rsp = s.rsp ++ [c] →
    c = 0x01 ∨ c = 0x02 ∨ c = 0x04 →
    ∃ (e : Ephemeral) (n : Nat), t = { s with rsp := s.rsp ++ [c], eph := e, freeCount := n }

/-- R26: every change of PHASE a command can make. -/
def Obligations.PhaseTransitions : Prop :=
  ∀ (i : Instr) (s t : State), exec i s = .next t →
    t.phase = s.phase ∨ (i = .init ∧ s.phase = .finalized ∧ t.phase = .absorbing) ∨
      (i = .final ∧ s.phase = .absorbing ∧ (t.phase = .finalized ∨ t.phase = .faulted))

/-- R166, R37: once FINALIZED, no command but INIT changes the Digest State. -/
def Obligations.DigestImmutableUntilInit : Prop :=
  ∀ (i : Instr) (s t : State), s.phase = .finalized → i ≠ .init → exec i s = .next t →
    t.hash = s.hash ∧ t.phase = .finalized ∧ t.bufLen = s.bufLen ∧ t.totalLength = s.totalLength ∧ t.buf = s.buf

/-- Every command answers a next state in every state, be it completed, refused or faulted in the words of R12, and so does
every step: nothing stops the engine. That a command always ends is R209; that the state left by InternalConsistencyFault is
a next state is deduced (notes/assumptions/4.md), and that waiting for an incomplete command is one is the model's choice
(notes/assumptions/3.md). -/
def Obligations.EveryCommandAnswersNextState : Prop :=
  (∀ (i : Instr) (s : State), ∃ t, exec i s = .next t) ∧ (∀ s : State, ∃ t, step s = .next t)

/-- The invariant holds after reset (R34): R31, whose congruence the spec infers from R34 and R142. -/
def Obligations.InvariantHoldsAtReset : Prop := Safe State.reset

/-- Every step keeps the invariant of R31, and from an unfaulted state that meets it PHASE does not become FAULTED: what R31
and R169 infer from R142 and R161 (inferences the spec marks as its own). -/
def Obligations.StepKeepsInvariant : Prop :=
  ∀ s t : State, BufferInv s → step s = .next t → BufferInv t ∧ (s.phase ≠ .faulted → t.phase ≠ .faulted)

/-- R35, R200, R211: what the host does keeps the invariant of R31; reset establishes it from every state. -/
def Obligations.HostEventsKeepInvariant : Prop :=
  ∀ (e : HostEvent) (r : Run),
    (BufferInv r.state → BufferInv (r.host e).state) ∧ (r.state.phase ≠ .faulted → (r.host e).state.phase ≠ .faulted) ∧
      Safe (r.host .reset).state

/-- A run of any moves (R210, R211) that begins in a state meeting the invariant of R31, unfaulted, ends in one: the fault
of R183 is unreachable, as R169 infers. That any interleaving is a run is the model's choice (notes/assumptions/6.md). -/
def Obligations.EveryRunStaysSafe : Prop :=
  ∀ (ms : List Move) (r : Run), Safe r.state → ∃ r', r.moves ms = .next r' ∧ Safe r'.state

/-- R34, R201: the reset values the spec gives. The values of the ephemeral registers are the model's own
(notes/assumptions/2.md) and are not stated. -/
def Obligations.ResetValues : Prop :=
  State.reset.hash = ⟨0x6a09e667, 0xbb67ae85, 0x3c6ef372, 0xa54ff53a, 0x510e527f, 0x9b05688c, 0x1f83d9ab, 0x5be0cd19⟩ ∧
  State.reset.bufLen = 0 ∧ (∀ (j : Nat) (hj : j < 64), State.reset.buf[j] = 0x00) ∧
  State.reset.totalLength = 0 ∧ State.reset.phase = .absorbing ∧ State.reset.cmd = []

/-- R34, R200: the reset event in every state: a fresh Digest State, CMD emptied, RSP kept. -/
def Obligations.ResetEventDiscardsCommands : Prop :=
  ∀ s : State,
    (resetEvent s).hash = initialHash ∧ (resetEvent s).bufLen = 0 ∧
    (∀ (j : Nat) (hj : j < 64), (resetEvent s).buf[j] = 0x00) ∧
    (resetEvent s).totalLength = 0 ∧ (resetEvent s).phase = .absorbing ∧ (resetEvent s).cmd = [] ∧
    (resetEvent s).rsp = s.rsp

/-- R36, R37: bytes of BUF above BUFLEN and the ephemeral registers have no effect on anything the host can ever see: two
states equal in the rest go to states equal in the rest. -/
def Obligations.HiddenStateUnobservable : Prop :=
  (∀ (i : Instr) (s t : State), s.persistent = t.persistent →
    ∃ s' t', exec i s = .next s' ∧ exec i t = .next t' ∧ s'.persistent = t'.persistent) ∧
  (∀ s t : State, s.persistent = t.persistent →
    ∃ s' t', step s = .next s' ∧ step t = .next t' ∧ s'.persistent = t'.persistent)

/-- As many steps as CMD has bytes execute every complete command at its front; then the engine waits (R79, R80, R210). The
surplus steps wait, and that a waiting step is a next state is the model's choice (notes/assumptions/3.md). The last clause,
that from an unfaulted state meeting the invariant the run has then ended well or is stuck in a partly received command,
rests on the invariant of R31 and on R169, which keep PHASE out of FAULTED (inferences the spec marks as its own). -/
def Obligations.ReadyCommandsAllExecute : Prop :=
  ∀ s : State, ∃ t, executeReady s = .next t ∧ Waiting t ∧ (Safe s → EndedWell t ∨ Stuck t)

/-- R35, R210, R212 (b): no move of a run takes back, changes or reorders a byte that has appeared on RSP. -/
def Obligations.ObservationOnlyGrows : Prop :=
  ∀ (ms : List Move) (r r' : Run), r.moves ms = .next r' → ∃ more, r'.observed = r.observed ++ more

/-- R80, R211: the pieces in which the host sends its bytes do not matter. The states are equal in every field, so also in
the ephemeral registers and in freeCount, which the spec gives no value: that both runs draw the same free values there is
the model's choice (notes/assumptions/1.md), and so are the waiting steps (notes/assumptions/3.md). -/
def Obligations.SendPiecesDoNotMatter : Prop :=
  ∀ (s : State) (a b : List Byte), ∃ t, executeReady (send a s) = .next t ∧
    executeReady (send b t) = executeReady (send (a ++ b) s)

/-- R83, R147, R161, R165: INIT, the message in any chunks, FINAL: the digest emitted is that of padding the whole
message up front and folding its blocks. The padding is written in the closed form that R162 infers from R161. For
messages of 2^61 bytes or more this rests on decision D8. -/
def Obligations.ChunkedHashIsReferenceDigest : Prop :=
  ∀ (s : State) (chunks : List (List Byte)), s.phase ≠ .faulted →
    ∃ t, execAll (.init :: (chunks.map Instr.absorb ++ [.final])) s = .next t ∧ t.phase = .finalized ∧
      t.rsp = s.rsp ++ (List.replicate (chunks.length + 1) 0x00 ++ 0x00 :: referenceDigest chunks.flatten)

/-- R81, R83, R79, R116, R161, R165: the bytes of HASH m, sent to an unfaulted engine that waits with an empty CMD, give one
0x00 for INIT, one for each ABSORB of the expansion, and 0x00 with the digest of m. The digest's padding is written in the
closed form that R162 infers from R161 (an inference the spec marks as its own), and the surplus steps wait
(notes/assumptions/3.md). For messages of 2^61 bytes or more this rests on decision D8. -/
def Obligations.HashBytesGiveReferenceDigest : Prop :=
  ∀ (s : State) (m : List Byte), s.phase ≠ .faulted → s.cmd = [] →
    ∃ t, executeReady (send ((hashCommands m).flatMap encode) s) = .next t ∧ t.cmd = [] ∧ t.phase = .finalized ∧
      t.rsp = s.rsp ++ (List.replicate ((hashCommands m).length - 1) 0x00 ++ 0x00 :: referenceDigest m) ∧
      (m.length < 2 ^ 32 → (hashCommands m).length = 3)

/-- R83: ABSORB of any byte sequence expands to encodable ABSORBs whose payloads are the sequence, in order. -/
def Obligations.LongAbsorbSplits : Prop :=
  ∀ p : List Byte, ∃ chunks : List (List Byte), absorbCommands p.length p = chunks.map Instr.absorb ∧
    chunks.flatten = p ∧ ∀ c ∈ chunks, c.length ≤ 2 ^ 32 - 1
end

