-- ==== Sys2Proof/Laws/Operands.lean ====
section
/-! SUPPORT. Spec lemmas of the byte conversions and of MemRead, MemWrite and the block slice. -/

namespace Sys2Proof.Machine

@[simp] theorem bytes32_length (w : Word) : (bytes32 w).length = 4 := rfl

@[simp] theorem bytes64_length (v : Word64) : (bytes64 v).length = 8 := rfl

@[simp] theorem digestBytes_length (h : Hash) : (digestBytes h).length = 32 := rfl

@[simp] theorem memRead_length (p : List Byte) (off n : Nat) : (memRead p off n).length = min n (p.length - off) := by
  simp [memRead]

@[simp] theorem memRead_zero (p : List Byte) (n : Nat) : memRead p 0 n = p.take n := rfl

@[simp] theorem memWrite_nil (buf : Block) (off : Nat) : memWrite buf off [] = buf := rfl

/-- What MemWrite leaves in each byte of BUF: the byte written there, or the byte that was there (R10). -/
theorem memWrite_getElem (bs : List Byte) (buf : Block) (off : Nat) (j : Nat) (hj : j < 64) :
    (memWrite buf off bs)[j] = if h : off ≤ j ∧ j < off + bs.length then bs[j - off]'(by omega) else buf[j] := by
  induction bs generalizing buf off with
  | nil => simp only [memWrite, List.length_nil]; rw [dif_neg (by omega)]
  | cons b bs ih =>
    simp only [memWrite, List.length_cons]
    rw [ih, Vector.getElem_setIfInBounds]
    by_cases h1 : off = j
    · subst h1
      rw [dif_neg (by omega), dif_pos (by omega)]
      simp
    · by_cases h2 : off + 1 ≤ j ∧ j < off + 1 + bs.length
      · rw [dif_pos h2, dif_pos (by omega)]
        obtain ⟨k, rfl⟩ : ∃ k, j = off + 1 + k := ⟨j - (off + 1), by omega⟩
        simp [show off + 1 + k - off = k + 1 by omega, show off + 1 + k - (off + 1) = k by omega]
      · rw [dif_neg h2, dif_neg (by omega)]
        simp [h1]

/-- The first bytes of BUF after a write that starts where they end (R142 step 2). -/
theorem memWrite_take (bs : List Byte) (buf : Block) (off : Nat) (h : off + bs.length ≤ 64) :
    (memWrite buf off bs).toList.take (off + bs.length) = buf.toList.take off ++ bs := by
  apply List.ext_getElem
  · simp; omega
  · intro j h1 h2
    have hj : j < off + bs.length := by simp at h1; omega
    have hw := memWrite_getElem bs buf off j (by omega)
    simp only [List.getElem_take, Vector.getElem_toList, hw]
    by_cases hlt : j < off
    · rw [dif_neg (by omega), List.getElem_append_left (by simp; omega)]
      simp
    · rw [dif_pos (by omega), List.getElem_append_right (by simp; omega)]
      congr 1
      simp; omega

@[simp] theorem blockOf_toList (p : List Byte) (h : 64 ≤ p.length) : (blockOf p h).toList = p.take 64 := by
  simp [blockOf, Vector.toList]

/-- A block is known by its bytes. -/
theorem block_ext {b c : Block} (h : b.toList = c.toList) : b = c := Vector.toList_inj.1 h

end Sys2Proof.Machine
end

