-- ==== Sys2Proof/Laws/Decode.lean ====
section
/-! SUPPORT. Small facts about the decoder, one per branch of R79, and about the free opcode bits of the ILLEGAL rows. -/

namespace Sys2Proof

open Sys2Proof.Machine

@[simp] theorem decode_nil : decode [] = .wait := rfl

@[simp] theorem decode_init (q : List Byte) : decode (0x01 :: q) = .command .init q := rfl

@[simp] theorem decode_final (q : List Byte) : decode (0x03 :: q) = .command .final q := rfl

@[simp] theorem decode_absorb_opcode (q : List Byte) : decode (0x02 :: q) = decodeAbsorb q := rfl

/-- Any other opcode byte is a whole command by itself (R76). -/
theorem decode_illegal (op : Byte) (q : List Byte) (h1 : op ≠ 0x01) (h2 : op ≠ 0x02) (h3 : op ≠ 0x03) :
    decode (op :: q) = .command (illegalOf op) q := by
  rw [decode, if_neg h1, if_neg h3, if_neg h2]

/-- ABSORB with its LEN bytes present, as R79 writes it. -/
theorem decodeAbsorb_header (b1 b2 b3 b4 : Byte) (q : List Byte) :
    decodeAbsorb (b1 :: b2 :: b3 :: b4 :: q) =
      if q.length < (be32 b1 b2 b3 b4).toNat then .wait
      else .command (.absorb (q.take (be32 b1 b2 b3 b4).toNat)) (q.drop (be32 b1 b2 b3 b4).toNat) := rfl

/-- illegalOf answers an ILLEGAL row for every byte. -/
theorem illegalOf_isIllegal (op : Byte) : (illegalOf op).isIllegal = true := by
  unfold illegalOf
  repeat' split
  all_goals rfl

end Sys2Proof
end

