-- ==== Sys2Proof/Laws/State.lean ====
section
/-! SUPPORT. Beside State: for each update of it, what every field reads afterwards. No later proof unfolds an update. -/

namespace Sys2Proof.Machine

@[simp] theorem addLength_hash (n : Nat) (s : State) : (addLength n s).hash = s.hash := rfl
@[simp] theorem addLength_buf (n : Nat) (s : State) : (addLength n s).buf = s.buf := rfl
@[simp] theorem addLength_bufLen (n : Nat) (s : State) : (addLength n s).bufLen = s.bufLen := rfl
@[simp] theorem addLength_totalLength (n : Nat) (s : State) : (addLength n s).totalLength = lengthAdd s.totalLength n := rfl
@[simp] theorem addLength_phase (n : Nat) (s : State) : (addLength n s).phase = s.phase := rfl
@[simp] theorem addLength_eph (n : Nat) (s : State) : (addLength n s).eph = s.eph := rfl
@[simp] theorem addLength_cmd (n : Nat) (s : State) : (addLength n s).cmd = s.cmd := rfl
@[simp] theorem addLength_rsp (n : Nat) (s : State) : (addLength n s).rsp = s.rsp := rfl
@[simp] theorem addLength_freeCount (n : Nat) (s : State) : (addLength n s).freeCount = s.freeCount := rfl

@[simp] theorem appendBuf_hash (bs : List Byte) (s : State) : (appendBuf bs s).hash = s.hash := rfl
@[simp] theorem appendBuf_buf (bs : List Byte) (s : State) : (appendBuf bs s).buf = memWrite s.buf s.bufLen.val bs := rfl
@[simp] theorem appendBuf_bufLen (bs : List Byte) (s : State) : (appendBuf bs s).bufLen = Fin.ofNat 65 (s.bufLen.val + bs.length) := rfl
@[simp] theorem appendBuf_totalLength (bs : List Byte) (s : State) : (appendBuf bs s).totalLength = s.totalLength := rfl
@[simp] theorem appendBuf_phase (bs : List Byte) (s : State) : (appendBuf bs s).phase = s.phase := rfl
@[simp] theorem appendBuf_eph (bs : List Byte) (s : State) : (appendBuf bs s).eph = s.eph := rfl
@[simp] theorem appendBuf_cmd (bs : List Byte) (s : State) : (appendBuf bs s).cmd = s.cmd := rfl
@[simp] theorem appendBuf_rsp (bs : List Byte) (s : State) : (appendBuf bs s).rsp = s.rsp := rfl
@[simp] theorem appendBuf_freeCount (bs : List Byte) (s : State) : (appendBuf bs s).freeCount = s.freeCount := rfl

@[simp] theorem clearBuf_hash (s : State) : (clearBuf s).hash = s.hash := rfl
@[simp] theorem clearBuf_buf (s : State) : (clearBuf s).buf = s.buf := rfl
@[simp] theorem clearBuf_bufLen (s : State) : (clearBuf s).bufLen = 0 := rfl
@[simp] theorem clearBuf_totalLength (s : State) : (clearBuf s).totalLength = s.totalLength := rfl
@[simp] theorem clearBuf_phase (s : State) : (clearBuf s).phase = s.phase := rfl
@[simp] theorem clearBuf_eph (s : State) : (clearBuf s).eph = s.eph := rfl
@[simp] theorem clearBuf_cmd (s : State) : (clearBuf s).cmd = s.cmd := rfl
@[simp] theorem clearBuf_rsp (s : State) : (clearBuf s).rsp = s.rsp := rfl
@[simp] theorem clearBuf_freeCount (s : State) : (clearBuf s).freeCount = s.freeCount := rfl

@[simp] theorem setPhase_hash (p : Phase) (s : State) : (setPhase p s).hash = s.hash := rfl
@[simp] theorem setPhase_buf (p : Phase) (s : State) : (setPhase p s).buf = s.buf := rfl
@[simp] theorem setPhase_bufLen (p : Phase) (s : State) : (setPhase p s).bufLen = s.bufLen := rfl
@[simp] theorem setPhase_totalLength (p : Phase) (s : State) : (setPhase p s).totalLength = s.totalLength := rfl
@[simp] theorem setPhase_phase (p : Phase) (s : State) : (setPhase p s).phase = p := rfl
@[simp] theorem setPhase_eph (p : Phase) (s : State) : (setPhase p s).eph = s.eph := rfl
@[simp] theorem setPhase_cmd (p : Phase) (s : State) : (setPhase p s).cmd = s.cmd := rfl
@[simp] theorem setPhase_rsp (p : Phase) (s : State) : (setPhase p s).rsp = s.rsp := rfl
@[simp] theorem setPhase_freeCount (p : Phase) (s : State) : (setPhase p s).freeCount = s.freeCount := rfl

@[simp] theorem latchBitLen_hash (s : State) : (latchBitLen s).hash = s.hash := rfl
@[simp] theorem latchBitLen_buf (s : State) : (latchBitLen s).buf = s.buf := rfl
@[simp] theorem latchBitLen_bufLen (s : State) : (latchBitLen s).bufLen = s.bufLen := rfl
@[simp] theorem latchBitLen_totalLength (s : State) : (latchBitLen s).totalLength = s.totalLength := rfl
@[simp] theorem latchBitLen_phase (s : State) : (latchBitLen s).phase = s.phase := rfl
@[simp] theorem latchBitLen_eph (s : State) : (latchBitLen s).eph = { s.eph with bitLen := bitLength s.totalLength } := rfl
@[simp] theorem latchBitLen_cmd (s : State) : (latchBitLen s).cmd = s.cmd := rfl
@[simp] theorem latchBitLen_rsp (s : State) : (latchBitLen s).rsp = s.rsp := rfl
@[simp] theorem latchBitLen_freeCount (s : State) : (latchBitLen s).freeCount = s.freeCount := rfl

@[simp] theorem freshDigest_hash (s : State) : (freshDigest s).hash = initialHash := rfl
@[simp] theorem freshDigest_buf (s : State) : (freshDigest s).buf = Vector.replicate 64 0 := rfl
@[simp] theorem freshDigest_bufLen (s : State) : (freshDigest s).bufLen = 0 := rfl
@[simp] theorem freshDigest_totalLength (s : State) : (freshDigest s).totalLength = 0 := rfl
@[simp] theorem freshDigest_phase (s : State) : (freshDigest s).phase = .absorbing := rfl
@[simp] theorem freshDigest_eph (s : State) : (freshDigest s).eph = s.eph := rfl
@[simp] theorem freshDigest_cmd (s : State) : (freshDigest s).cmd = s.cmd := rfl
@[simp] theorem freshDigest_rsp (s : State) : (freshDigest s).rsp = s.rsp := rfl
@[simp] theorem freshDigest_freeCount (s : State) : (freshDigest s).freeCount = s.freeCount := rfl

@[simp] theorem emit_hash (bs : List Byte) (s : State) : (emit bs s).hash = s.hash := rfl
@[simp] theorem emit_buf (bs : List Byte) (s : State) : (emit bs s).buf = s.buf := rfl
@[simp] theorem emit_bufLen (bs : List Byte) (s : State) : (emit bs s).bufLen = s.bufLen := rfl
@[simp] theorem emit_totalLength (bs : List Byte) (s : State) : (emit bs s).totalLength = s.totalLength := rfl
@[simp] theorem emit_phase (bs : List Byte) (s : State) : (emit bs s).phase = s.phase := rfl
@[simp] theorem emit_eph (bs : List Byte) (s : State) : (emit bs s).eph = s.eph := rfl
@[simp] theorem emit_cmd (bs : List Byte) (s : State) : (emit bs s).cmd = s.cmd := rfl
@[simp] theorem emit_rsp (bs : List Byte) (s : State) : (emit bs s).rsp = s.rsp ++ bs := rfl
@[simp] theorem emit_freeCount (bs : List Byte) (s : State) : (emit bs s).freeCount = s.freeCount := rfl

@[simp] theorem retire_hash (s : State) : (retire s).hash = s.hash := rfl
@[simp] theorem retire_buf (s : State) : (retire s).buf = s.buf := rfl
@[simp] theorem retire_bufLen (s : State) : (retire s).bufLen = s.bufLen := rfl
@[simp] theorem retire_totalLength (s : State) : (retire s).totalLength = s.totalLength := rfl
@[simp] theorem retire_phase (s : State) : (retire s).phase = s.phase := rfl
@[simp] theorem retire_eph (s : State) : (retire s).eph = Config.freeEphemeral s.freeCount := rfl
@[simp] theorem retire_cmd (s : State) : (retire s).cmd = s.cmd := rfl
@[simp] theorem retire_rsp (s : State) : (retire s).rsp = s.rsp := rfl
@[simp] theorem retire_freeCount (s : State) : (retire s).freeCount = s.freeCount + 1 := rfl

@[simp] theorem respond_hash (c : Byte) (bs : List Byte) (s : State) : (respond c bs s).hash = s.hash := rfl
@[simp] theorem respond_buf (c : Byte) (bs : List Byte) (s : State) : (respond c bs s).buf = s.buf := rfl
@[simp] theorem respond_bufLen (c : Byte) (bs : List Byte) (s : State) : (respond c bs s).bufLen = s.bufLen := rfl
@[simp] theorem respond_totalLength (c : Byte) (bs : List Byte) (s : State) : (respond c bs s).totalLength = s.totalLength := rfl
@[simp] theorem respond_phase (c : Byte) (bs : List Byte) (s : State) : (respond c bs s).phase = s.phase := rfl
@[simp] theorem respond_eph (c : Byte) (bs : List Byte) (s : State) : (respond c bs s).eph = Config.freeEphemeral s.freeCount := rfl
@[simp] theorem respond_cmd (c : Byte) (bs : List Byte) (s : State) : (respond c bs s).cmd = s.cmd := rfl
@[simp] theorem respond_rsp (c : Byte) (bs : List Byte) (s : State) : (respond c bs s).rsp = s.rsp ++ c :: bs := rfl
@[simp] theorem respond_freeCount (c : Byte) (bs : List Byte) (s : State) : (respond c bs s).freeCount = s.freeCount + 1 := rfl

@[simp] theorem raise_hash (e : Exception) (s : State) : (raise e s).hash = s.hash := rfl
@[simp] theorem raise_buf (e : Exception) (s : State) : (raise e s).buf = s.buf := rfl
@[simp] theorem raise_bufLen (e : Exception) (s : State) : (raise e s).bufLen = s.bufLen := rfl
@[simp] theorem raise_totalLength (e : Exception) (s : State) : (raise e s).totalLength = s.totalLength := rfl
@[simp] theorem raise_phase (e : Exception) (s : State) : (raise e s).phase = e.phaseAfter s.phase := rfl
@[simp] theorem raise_eph (e : Exception) (s : State) : (raise e s).eph = Config.freeEphemeral s.freeCount := rfl
@[simp] theorem raise_cmd (e : Exception) (s : State) : (raise e s).cmd = s.cmd := rfl
@[simp] theorem raise_rsp (e : Exception) (s : State) : (raise e s).rsp = s.rsp ++ [e.code] := rfl
@[simp] theorem raise_freeCount (e : Exception) (s : State) : (raise e s).freeCount = s.freeCount + 1 := rfl

@[simp] theorem consume_hash (q : List Byte) (s : State) : (consume q s).hash = s.hash := rfl
@[simp] theorem consume_buf (q : List Byte) (s : State) : (consume q s).buf = s.buf := rfl
@[simp] theorem consume_bufLen (q : List Byte) (s : State) : (consume q s).bufLen = s.bufLen := rfl
@[simp] theorem consume_totalLength (q : List Byte) (s : State) : (consume q s).totalLength = s.totalLength := rfl
@[simp] theorem consume_phase (q : List Byte) (s : State) : (consume q s).phase = s.phase := rfl
@[simp] theorem consume_eph (q : List Byte) (s : State) : (consume q s).eph = s.eph := rfl
@[simp] theorem consume_cmd (q : List Byte) (s : State) : (consume q s).cmd = q := rfl
@[simp] theorem consume_rsp (q : List Byte) (s : State) : (consume q s).rsp = s.rsp := rfl
@[simp] theorem consume_freeCount (q : List Byte) (s : State) : (consume q s).freeCount = s.freeCount := rfl

@[simp] theorem seqSchedule_hash (blk : Block) (s : State) : (seqSchedule blk s).hash = s.hash := by simp only [seqSchedule]
@[simp] theorem seqSchedule_buf (blk : Block) (s : State) : (seqSchedule blk s).buf = s.buf := by simp only [seqSchedule]
@[simp] theorem seqSchedule_bufLen (blk : Block) (s : State) : (seqSchedule blk s).bufLen = s.bufLen := by simp only [seqSchedule]
@[simp] theorem seqSchedule_totalLength (blk : Block) (s : State) : (seqSchedule blk s).totalLength = s.totalLength := by simp only [seqSchedule]
@[simp] theorem seqSchedule_phase (blk : Block) (s : State) : (seqSchedule blk s).phase = s.phase := by simp only [seqSchedule]
@[simp] theorem seqSchedule_eph (blk : Block) (s : State) : (seqSchedule blk s).eph = { s.eph with w := sched blk s.eph.w } := by simp only [seqSchedule]
@[simp] theorem seqSchedule_cmd (blk : Block) (s : State) : (seqSchedule blk s).cmd = s.cmd := by simp only [seqSchedule]
@[simp] theorem seqSchedule_rsp (blk : Block) (s : State) : (seqSchedule blk s).rsp = s.rsp := by simp only [seqSchedule]
@[simp] theorem seqSchedule_freeCount (blk : Block) (s : State) : (seqSchedule blk s).freeCount = s.freeCount := by simp only [seqSchedule]

@[simp] theorem seqInitWork_hash (s : State) : (seqInitWork s).hash = s.hash := rfl
@[simp] theorem seqInitWork_buf (s : State) : (seqInitWork s).buf = s.buf := rfl
@[simp] theorem seqInitWork_bufLen (s : State) : (seqInitWork s).bufLen = s.bufLen := rfl
@[simp] theorem seqInitWork_totalLength (s : State) : (seqInitWork s).totalLength = s.totalLength := rfl
@[simp] theorem seqInitWork_phase (s : State) : (seqInitWork s).phase = s.phase := rfl
@[simp] theorem seqInitWork_eph (s : State) : (seqInitWork s).eph = { s.eph with work := initWork s.hash, i := 0 } := rfl
@[simp] theorem seqInitWork_cmd (s : State) : (seqInitWork s).cmd = s.cmd := rfl
@[simp] theorem seqInitWork_rsp (s : State) : (seqInitWork s).rsp = s.rsp := rfl
@[simp] theorem seqInitWork_freeCount (s : State) : (seqInitWork s).freeCount = s.freeCount := rfl

@[simp] theorem seqFeedback_hash (s : State) : (seqFeedback s).hash = feedback s.hash s.eph.work := rfl
@[simp] theorem seqFeedback_buf (s : State) : (seqFeedback s).buf = s.buf := rfl
@[simp] theorem seqFeedback_bufLen (s : State) : (seqFeedback s).bufLen = s.bufLen := rfl
@[simp] theorem seqFeedback_totalLength (s : State) : (seqFeedback s).totalLength = s.totalLength := rfl
@[simp] theorem seqFeedback_phase (s : State) : (seqFeedback s).phase = s.phase := rfl
@[simp] theorem seqFeedback_eph (s : State) : (seqFeedback s).eph = s.eph := rfl
@[simp] theorem seqFeedback_cmd (s : State) : (seqFeedback s).cmd = s.cmd := rfl
@[simp] theorem seqFeedback_rsp (s : State) : (seqFeedback s).rsp = s.rsp := rfl
@[simp] theorem seqFeedback_freeCount (s : State) : (seqFeedback s).freeCount = s.freeCount := rfl

@[simp] theorem send_hash (bs : List Byte) (s : State) : (send bs s).hash = s.hash := rfl
@[simp] theorem send_buf (bs : List Byte) (s : State) : (send bs s).buf = s.buf := rfl
@[simp] theorem send_bufLen (bs : List Byte) (s : State) : (send bs s).bufLen = s.bufLen := rfl
@[simp] theorem send_totalLength (bs : List Byte) (s : State) : (send bs s).totalLength = s.totalLength := rfl
@[simp] theorem send_phase (bs : List Byte) (s : State) : (send bs s).phase = s.phase := rfl
@[simp] theorem send_eph (bs : List Byte) (s : State) : (send bs s).eph = s.eph := rfl
@[simp] theorem send_cmd (bs : List Byte) (s : State) : (send bs s).cmd = s.cmd ++ bs := rfl
@[simp] theorem send_rsp (bs : List Byte) (s : State) : (send bs s).rsp = s.rsp := rfl
@[simp] theorem send_freeCount (bs : List Byte) (s : State) : (send bs s).freeCount = s.freeCount := rfl

@[simp] theorem resetEvent_hash (s : State) : (resetEvent s).hash = initialHash := rfl
@[simp] theorem resetEvent_buf (s : State) : (resetEvent s).buf = Vector.replicate 64 0 := rfl
@[simp] theorem resetEvent_bufLen (s : State) : (resetEvent s).bufLen = 0 := rfl
@[simp] theorem resetEvent_totalLength (s : State) : (resetEvent s).totalLength = 0 := rfl
@[simp] theorem resetEvent_phase (s : State) : (resetEvent s).phase = .absorbing := rfl
@[simp] theorem resetEvent_eph (s : State) : (resetEvent s).eph = Config.freeEphemeral s.freeCount := rfl
@[simp] theorem resetEvent_cmd (s : State) : (resetEvent s).cmd = [] := rfl
@[simp] theorem resetEvent_rsp (s : State) : (resetEvent s).rsp = s.rsp := rfl
@[simp] theorem resetEvent_freeCount (s : State) : (resetEvent s).freeCount = s.freeCount + 1 := rfl

/-- A refusal changes no field but RSP and what the end of a command changes. -/
theorem raise_refusal (e : Exception) (he : e ≠ .internalConsistencyFault) (s : State) :
    raise e s = respond e.code [] s := by
  cases e <;> first | rfl | exact absurd rfl he

end Sys2Proof.Machine
end

