-- ==== Sys2Proof/Laws/Sequencer.lean ====
section
/-! SUPPORT. What the iterative compression machine writes: H, W, a to h, T1, T2 and i, and nothing else (R117). -/

namespace Sys2Proof.Machine

/-- Where a word of R29's table stands in K: row r, column c is K[4r + c]. -/
theorem roundConstants_row : ∀ (r : Fin 16) (c : Fin 4), roundConstants[4 * r.val + c.val] = roundConstantTable[r][c] := by
  decide +kernel

/-- A shift of the window moves every word but the oldest one place towards the oldest (R134). -/
theorem windowShift_getElem (v : Window) (k : Nat) (hk : k < 15) : (windowShift v)[k] = v[k + 1] := by
  interval_cases k <;> rfl

/-- The word a shift brings in is the newest (R132, R134). -/
@[simp] theorem windowShift_newest (v : Window) : (windowShift v)[15] = windowNext v := rfl

/-- One ROUND for an index below 64, as one update of the ephemeral registers (R112). -/
theorem seqRound_lt (s : State) (hi : s.eph.i.val < 64) :
    seqRound s = { s with eph :=
      { s.eph with
        t1 := temp1 s.eph.work roundConstants[s.eph.i.val] s.eph.w[s.eph.i.val]
        t2 := temp2 s.eph.work
        work := roundWork s.eph.work roundConstants[s.eph.i.val] s.eph.w[s.eph.i.val]
        i := ⟨s.eph.i.val + 1, by omega⟩ } } := by
  simp [seqRound, hi, roundWork]

/-- Everything a sequencer step in RND can do: it writes ephemeral registers other than BITLEN and W. -/
theorem seqRound_writes (s : State) :
    ∃ e, seqRound s = { s with eph := e } ∧ e.bitLen = s.eph.bitLen ∧ e.w = s.eph.w := by
  by_cases hi : s.eph.i.val < 64
  · exact ⟨_, seqRound_lt s hi, rfl, rfl⟩
  · exact ⟨s.eph, by simp [seqRound, hi], rfl, rfl⟩

/-- The same for any number of steps. -/
theorem seqRounds_writes (n : Nat) (s : State) :
    ∃ e, seqRounds n s = { s with eph := e } ∧ e.bitLen = s.eph.bitLen ∧ e.w = s.eph.w := by
  induction n with
  | zero => exact ⟨s.eph, rfl, rfl, rfl⟩
  | succ n ih =>
    obtain ⟨e, he, hb, hw⟩ := ih
    obtain ⟨e', he', hb', hw'⟩ := seqRound_writes (seqRounds n s)
    refine ⟨e', ?_, ?_, ?_⟩
    · simp only [seqRounds]; rw [he', he]
    · rw [hb', he]; exact hb
    · rw [hw', he]; exact hw

/-- Everything COMPRESS on the machine can do: it writes H and ephemeral registers other than BITLEN (R117, R207 (a)). -/
theorem compressBlock_writes (blk : Block) (s : State) :
    ∃ h e, compressBlock blk s = { s with hash := h, eph := e } ∧ e.bitLen = s.eph.bitLen := by
  obtain ⟨e, he, hb, -⟩ := seqRounds_writes 64 (seqInitWork (seqSchedule blk s))
  refine ⟨feedback s.hash e.work, e, ?_, by simpa using hb⟩
  simp [compressBlock, he, seqFeedback]

section
variable (blk : Block) (s : State)

@[simp] theorem compressBlock_buf : (compressBlock blk s).buf = s.buf := by
  obtain ⟨_, _, h, -⟩ := compressBlock_writes blk s; rw [h]

@[simp] theorem compressBlock_bufLen : (compressBlock blk s).bufLen = s.bufLen := by
  obtain ⟨_, _, h, -⟩ := compressBlock_writes blk s; rw [h]

@[simp] theorem compressBlock_totalLength : (compressBlock blk s).totalLength = s.totalLength := by
  obtain ⟨_, _, h, -⟩ := compressBlock_writes blk s; rw [h]

@[simp] theorem compressBlock_phase : (compressBlock blk s).phase = s.phase := by
  obtain ⟨_, _, h, -⟩ := compressBlock_writes blk s; rw [h]

@[simp] theorem compressBlock_cmd : (compressBlock blk s).cmd = s.cmd := by
  obtain ⟨_, _, h, -⟩ := compressBlock_writes blk s; rw [h]

@[simp] theorem compressBlock_rsp : (compressBlock blk s).rsp = s.rsp := by
  obtain ⟨_, _, h, -⟩ := compressBlock_writes blk s; rw [h]

@[simp] theorem compressBlock_freeCount : (compressBlock blk s).freeCount = s.freeCount := by
  obtain ⟨_, _, h, -⟩ := compressBlock_writes blk s; rw [h]

@[simp] theorem compressBlock_bitLen : (compressBlock blk s).eph.bitLen = s.eph.bitLen := by
  obtain ⟨_, _, h, hb⟩ := compressBlock_writes blk s; rw [h]; exact hb

end

end Sys2Proof.Machine
end

