-- ==== Sys2Proof/Laws/Streaming.lean ====
section
/-! SUPPORT. What absorb writes: TOTAL_LENGTH, BUF, BUFLEN, and through COMPRESS H and ephemeral registers (R142). -/

namespace Sys2Proof.Machine

/-- `s'` differs from `s` only in H, BUF, BUFLEN and ephemeral registers other than BITLEN. -/
def SameOutsideBuffer (s s' : State) : Prop :=
  s'.totalLength = s.totalLength ∧ s'.phase = s.phase ∧ s'.cmd = s.cmd ∧ s'.rsp = s.rsp ∧ s'.freeCount = s.freeCount ∧
    s'.eph.bitLen = s.eph.bitLen

theorem SameOutsideBuffer.rfl {s : State} : SameOutsideBuffer s s := ⟨Eq.refl _, Eq.refl _, Eq.refl _, Eq.refl _, Eq.refl _, Eq.refl _⟩

theorem SameOutsideBuffer.trans {s t u : State} (h : SameOutsideBuffer s t) (k : SameOutsideBuffer t u) :
    SameOutsideBuffer s u := by
  obtain ⟨a, b, c, d, e, f⟩ := h
  obtain ⟨a', b', c', d', e', f'⟩ := k
  exact ⟨a'.trans a, b'.trans b, c'.trans c, d'.trans d, e'.trans e, f'.trans f⟩

theorem compressBlock_outside (blk : Block) (s : State) : SameOutsideBuffer s (compressBlock blk s) := by
  simp [SameOutsideBuffer]

theorem appendBuf_outside (bs : List Byte) (s : State) : SameOutsideBuffer s (appendBuf bs s) := by
  simp [SameOutsideBuffer]

theorem clearBuf_outside (s : State) : SameOutsideBuffer s (clearBuf s) := by simp [SameOutsideBuffer]

theorem drainFull_outside (s : State) : SameOutsideBuffer s (drainFull s) := by
  unfold drainFull
  split
  · exact (compressBlock_outside _ _).trans (clearBuf_outside _)
  · exact .rfl

theorem fillPartial_outside (p : List Byte) (s : State) : SameOutsideBuffer s (fillPartial p s).1 := by
  unfold fillPartial
  split
  · exact .rfl
  · exact (appendBuf_outside _ _).trans (drainFull_outside _)

theorem absorbDirect_outside (n : Nat) (p : List Byte) (s : State) : SameOutsideBuffer s (absorbDirect n p s).1 := by
  induction n generalizing p s with
  | zero => exact .rfl
  | succ n ih =>
    unfold absorbDirect
    split
    · exact (compressBlock_outside _ _).trans (ih _ _)
    · exact .rfl

theorem storeTail_outside (r : List Byte) (s : State) : SameOutsideBuffer s (storeTail r s) := by
  unfold storeTail
  split
  · exact .rfl
  · exact (clearBuf_outside _).trans (appendBuf_outside _ _)

/-- Everything absorb can write: TOTAL_LENGTH counts the bytes, and the rest is H, BUF, BUFLEN and ephemeral registers
other than BITLEN. -/
theorem absorb_outside (p : List Byte) (s : State) : SameOutsideBuffer (addLength p.length s) (absorb p s) :=
  ((fillPartial_outside _ _).trans (absorbDirect_outside _ _ _)).trans (storeTail_outside _ _)

section
variable (p : List Byte) (s : State)

@[simp] theorem absorb_totalLength : (absorb p s).totalLength = lengthAdd s.totalLength p.length :=
  (absorb_outside p s).1

@[simp] theorem absorb_phase : (absorb p s).phase = s.phase := (absorb_outside p s).2.1

@[simp] theorem absorb_cmd : (absorb p s).cmd = s.cmd := (absorb_outside p s).2.2.1

@[simp] theorem absorb_rsp : (absorb p s).rsp = s.rsp := (absorb_outside p s).2.2.2.1

@[simp] theorem absorb_freeCount : (absorb p s).freeCount = s.freeCount := (absorb_outside p s).2.2.2.2.1

@[simp] theorem absorb_bitLen : (absorb p s).eph.bitLen = s.eph.bitLen := (absorb_outside p s).2.2.2.2.2

@[simp] theorem padAndAbsorb_phase : (padAndAbsorb s).phase = s.phase := by simp [padAndAbsorb, absorbBitLen, absorbZeros]

@[simp] theorem padAndAbsorb_cmd : (padAndAbsorb s).cmd = s.cmd := by simp [padAndAbsorb, absorbBitLen, absorbZeros]

@[simp] theorem padAndAbsorb_rsp : (padAndAbsorb s).rsp = s.rsp := by simp [padAndAbsorb, absorbBitLen, absorbZeros]

@[simp] theorem padAndAbsorb_freeCount : (padAndAbsorb s).freeCount = s.freeCount := by
  simp [padAndAbsorb, absorbBitLen, absorbZeros]

@[simp] theorem padAndAbsorb_bitLen : (padAndAbsorb s).eph.bitLen = bitLength s.totalLength := by
  simp [padAndAbsorb, absorbBitLen, absorbZeros]

end

end Sys2Proof.Machine
end

