-- ==== Sys2Proof/Laws/Exec.lean ====
section
/-! SUPPORT. The architectural part of a state under the shared operations, what a write to BUF leaves valid, and the
one inversion lemma of exec: every way a command can end. -/

namespace Sys2Proof.Machine

theorem persistent_fields {s t : State} (h : s.persistent = t.persistent) :
    s.hash = t.hash ∧ s.valid = t.valid ∧ s.bufLen = t.bufLen ∧ s.totalLength = t.totalLength ∧ s.phase = t.phase ∧
      s.cmd = t.cmd ∧ s.rsp = t.rsp := by
  simpa only [State.persistent, Persistent.mk.injEq] using h

theorem respond_persistent (c : Byte) (bs : List Byte) (s : State) :
    (respond c bs s).persistent = { s.persistent with rsp := s.rsp ++ c :: bs } := rfl

theorem setPhase_persistent (p : Phase) (s : State) :
    (setPhase p s).persistent = { s.persistent with phase := p } := rfl

theorem consume_persistent (q : List Byte) (s : State) :
    (consume q s).persistent = { s.persistent with cmd := q } := rfl

theorem latchBitLen_persistent (s : State) : (latchBitLen s).persistent = s.persistent := rfl

@[simp] theorem valid_length (s : State) : s.valid.length = s.bufLen.val := by
  simp [State.valid]; omega

/-- BUFLEN after a write that fits. -/
theorem appendBuf_bufLen_val (bs : List Byte) (s : State) (h : s.bufLen.val + bs.length ≤ 64) :
    (appendBuf bs s).bufLen.val = s.bufLen.val + bs.length := by
  simp only [appendBuf_bufLen, Fin.ofNat]; omega

/-- The valid bytes after a write that fits: the old ones, then the new ones. -/
theorem appendBuf_valid (bs : List Byte) (s : State) (h : s.bufLen.val + bs.length ≤ 64) :
    (appendBuf bs s).valid = s.valid ++ bs := by
  simp only [State.valid, appendBuf_bufLen_val bs s h, appendBuf_buf]
  exact memWrite_take bs s.buf _ h

/-- The seven ways a command can end, with the next state of each: three refusals, INIT, ABSORB, and FINAL with its
check failing or passing. -/
theorem exec_cases (i : Instr) (s : State) :
    (i.isIllegal = true ∧ exec i s = .next (respond 0x01 [] s)) ∨
    (i.isIllegal = false ∧ s.phase = .faulted ∧ exec i s = .next (respond 0x04 [] s)) ∨
    (i.isIllegal = false ∧ i ≠ .init ∧ s.phase = .finalized ∧ exec i s = .next (respond 0x02 [] s)) ∨
    (i = .init ∧ s.phase ≠ .faulted ∧ exec i s = .next (respond 0x00 [] (freshDigest s))) ∨
    (∃ p, i = .absorb p ∧ s.phase = .absorbing ∧ exec i s = .next (respond 0x00 [] (absorb p s))) ∨
    (i = .final ∧ s.phase = .absorbing ∧ (padAndAbsorb s).bufLen ≠ 0 ∧
      exec i s = .next (respond 0x03 [] (setPhase .faulted (padAndAbsorb s)))) ∨
    (i = .final ∧ s.phase = .absorbing ∧ (padAndAbsorb s).bufLen = 0 ∧
      exec i s = .next (respond 0x00 (digestBytes (padAndAbsorb s).hash) (setPhase .finalized (padAndAbsorb s)))) := by
  have raise_fault : ∀ t, raise .internalConsistencyFault t = respond 0x03 [] (setPhase .faulted t) := fun _ => rfl
  have refused (e : Exception) (he : e ≠ .internalConsistencyFault) : raise e s = respond e.code [] s := raise_refusal e he s
  cases i with
  | init =>
    have e : exec .init s = execInit s := rfl
    cases hp : s.phase
    · have h : execInit s = .next (respond 0x00 [] (freshDigest s)) := by
        simp only [execInit, hp, initRefusal, statusOk]
      exact .inr (.inr (.inr (.inl ⟨rfl, by decide, e.trans h⟩)))
    · have h : execInit s = .next (respond 0x00 [] (freshDigest s)) := by
        simp only [execInit, hp, initRefusal, statusOk]
      exact .inr (.inr (.inr (.inl ⟨rfl, by decide, e.trans h⟩)))
    · have h : execInit s = .next (respond 0x04 [] s) := by
        simp only [execInit, hp, initRefusal, refused .engineFaulted (by decide), Exception.code]
      exact .inr (.inl ⟨rfl, rfl, e.trans h⟩)
  | absorb p =>
    have e : exec (.absorb p) s = execAbsorb p s := rfl
    cases hp : s.phase
    · have h : execAbsorb p s = .next (respond 0x00 [] (absorb p s)) := by
        simp only [execAbsorb, hp, absorbRefusal, statusOk]
      exact .inr (.inr (.inr (.inr (.inl ⟨p, rfl, rfl, e.trans h⟩))))
    · have h : execAbsorb p s = .next (respond 0x02 [] s) := by
        simp only [execAbsorb, hp, absorbRefusal, refused .useAfterFinalize (by decide), Exception.code]
      exact .inr (.inr (.inl ⟨rfl, by simp, rfl, e.trans h⟩))
    · have h : execAbsorb p s = .next (respond 0x04 [] s) := by
        simp only [execAbsorb, hp, absorbRefusal, refused .engineFaulted (by decide), Exception.code]
      exact .inr (.inl ⟨rfl, rfl, e.trans h⟩)
  | final =>
    have e : exec .final s = execFinal s := rfl
    cases hp : s.phase
    · by_cases h0 : (padAndAbsorb s).bufLen = 0
      · have h : execFinal s =
            .next (respond 0x00 (digestBytes (padAndAbsorb s).hash) (setPhase .finalized (padAndAbsorb s))) := by
          simp only [execFinal, hp, finalRefusal, paddingFault, h0, if_true, statusOk]
        exact .inr (.inr (.inr (.inr (.inr (.inr ⟨rfl, rfl, h0, e.trans h⟩)))))
      · have h : execFinal s = .next (respond 0x03 [] (setPhase .faulted (padAndAbsorb s))) := by
          simp only [execFinal, hp, finalRefusal, paddingFault, h0, if_false, raise_fault]
        exact .inr (.inr (.inr (.inr (.inr (.inl ⟨rfl, rfl, h0, e.trans h⟩)))))
    · have h : execFinal s = .next (respond 0x02 [] s) := by
        simp only [execFinal, hp, finalRefusal, refused .useAfterFinalize (by decide), Exception.code]
      exact .inr (.inr (.inl ⟨rfl, by simp, rfl, e.trans h⟩))
    · have h : execFinal s = .next (respond 0x04 [] s) := by
        simp only [execFinal, hp, finalRefusal, refused .engineFaulted (by decide), Exception.code]
      exact .inr (.inl ⟨rfl, rfl, e.trans h⟩)
  | _ =>
    refine .inl ⟨rfl, ?_⟩
    exact congrArg Host.Outcome.next (refused .illegalCommand (by decide))

end Sys2Proof.Machine
end

