-- ==== Sys2Proof/Laws/PerInstr.lean ====
section
/-! SUPPORT. Statements about every command as syntax, one lemma per constructor of Instr. -/

namespace Sys2Proof.Laws.OpcodeRow

/-- The encoding begins with the command's opcode byte, the command's row of the opcode table selects that byte, and no
other row does (R72, R76). -/
def Statement (i : Instr) : Prop :=
  (encode i).head? = some (opcodeOf i) ∧ (rowOf i).selects (opcodeOf i) = true ∧
    ∀ r ∈ opcodeTable, r.selects (opcodeOf i) = true → r = rowOf i

theorem init : Statement .init := by unfold Statement; decide

theorem absorb (p : List Byte) : Statement (.absorb p) := by
  have h : (opcodeTable[1].selects 0x02 = true) ∧ ∀ r ∈ opcodeTable, r.selects 0x02 = true → r = opcodeTable[1] := by
    decide
  exact ⟨rfl, h⟩

theorem final : Statement .final := by unfold Statement; decide

theorem illegal00 : Statement .illegal00 := by unfold Statement; decide

theorem illegal04 (low : BitVec 2) : Statement (.illegal04 low) := by
  unfold Statement; revert low; decide

theorem illegal08 (low : BitVec 3) : Statement (.illegal08 low) := by
  unfold Statement; revert low; decide

theorem illegal10 (low : BitVec 4) : Statement (.illegal10 low) := by
  unfold Statement; revert low; decide

theorem illegal20 (low : BitVec 5) : Statement (.illegal20 low) := by
  unfold Statement; revert low; decide +kernel

theorem illegal40 (low : BitVec 6) : Statement (.illegal40 low) := by
  unfold Statement; revert low; decide +kernel

theorem illegal80 (low : BitVec 7) : Statement (.illegal80 low) := by
  unfold Statement; revert low; decide +kernel

end Sys2Proof.Laws.OpcodeRow
end

