-- ==== Sys2Proof/Laws/Reference.lean ====
section
/-! SUPPORT. The complete blocks and the tail of a byte sequence, one block at a time. -/

namespace Sys2Proof.Machine

/-- The bound of blocksFrom does not matter once it allows every complete block. -/
theorem blocksFrom_bound (n m : Nat) (p : List Byte) (hn : p.length / 64 ≤ n) (hm : p.length / 64 ≤ m) :
    blocksFrom n p = blocksFrom m p := by
  induction n generalizing m p with
  | zero =>
    have h : ¬ 64 ≤ p.length := by omega
    cases m with
    | zero => rfl
    | succ m => rw [blocksFrom, blocksFrom, dif_neg h]
  | succ n ih =>
    cases m with
    | zero =>
      have h : ¬ 64 ≤ p.length := by omega
      rw [blocksFrom, blocksFrom, dif_neg h]
    | succ m =>
      simp only [blocksFrom]
      split
      · rw [ih m (p.drop 64) (by simp; omega) (by simp; omega)]
      · rfl

theorem blocksOf_short (p : List Byte) (h : p.length < 64) : blocksOf p = [] := by
  rw [blocksOf, blocksFrom_bound _ 0 p (by omega) (by omega)]; rfl

theorem blocksOf_cons (p : List Byte) (h : 64 ≤ p.length) : blocksOf p = blockOf p h :: blocksOf (p.drop 64) := by
  rw [blocksOf, blocksFrom_bound _ (p.length / 64 + 1) p (by omega) (by omega)]
  simp only [blocksFrom, h, dite_true, blocksOf]
  rw [blocksFrom_bound _ (p.drop 64).length _ (by simp; omega) (by simp; omega)]

theorem tailOf_short (p : List Byte) (h : p.length < 64) : tailOf p = p := by
  simp [tailOf, Nat.div_eq_of_lt h]

theorem tailOf_drop (p : List Byte) (h : 64 ≤ p.length) : tailOf p = tailOf (p.drop 64) := by
  simp only [tailOf, List.drop_drop, List.length_drop]
  congr 1; omega

theorem tailOf_length (p : List Byte) : (tailOf p).length = p.length % 64 := by
  simp [tailOf]; omega

@[simp] theorem compressBlocks_nil (h : Hash) : compressBlocks h [] = h := rfl

@[simp] theorem compressBlocks_cons (h : Hash) (b : Block) (bs : List Block) :
    compressBlocks h (b :: bs) = compressBlocks (compress h b) bs := rfl

theorem padding_length (l : Nat) (v : Word64) : (padding l v).length = 1 + (55 + 64 - l % 64) % 64 + 8 := by
  simp [padding]; omega

end Sys2Proof.Machine
end

