-- ==== Sys2Proof/Tests/Slice0.lean ====
section
/-! SUPPORT. Small tests of the model, each expected value from spec/ (the vector is named beside it), and for every
statement with hypotheses a witness that meets them. -/

namespace Sys2Proof.Tests

-- The kernel evaluates whole compressions in some tests: one after another they need half the memory they need at once.
set_option Elab.async false

open Sys2Proof Sys2Proof.Machine

/-! ### Helpers -/

/-- What f reads in the next state, where there is one. -/
def after {α : Type} (f : State → α) : Host.Outcome State Fault Refusal → Option α
  | .next t => some (f t)
  | .fault _ => none
  | .refused _ => none

/-- The reset state with bytes on CMD. -/
def withCmd (q : List Byte) : State := { State.reset with cmd := q }

/-- An engine with these bytes, fewer than 64, absorbed since reset. -/
def holding (bs : List Byte) : State := appendBuf bs (addLength bs.length State.reset)

/-- The "abc" digest words, V-SRC-2. -/
def abcHash : Hash :=
  ⟨0xba7816bf, 0x8f01cfea, 0x414140de, 0x5dae2223, 0xb00361a3, 0x96177a9c, 0xb410ff61, 0xf20015ad⟩

/-- The state of X4: FINALIZED with the "abc" digest. -/
def afterAbc : State := { State.reset with hash := abcHash, totalLength := 64, phase := .finalized }

/-- FAULTED, posited as in X9 to X12. -/
def faultedState : State := { State.reset with phase := .faulted }

/-- A state that violates R31: 5 bytes in BUF that TOTAL_LENGTH does not count. -/
def miscounted : State := { State.reset with bufLen := 5 }

/-- Another state with the architectural part of State.reset: stale bytes in BUF, other ephemeral values. -/
def resetWithStaleBytes : State :=
  { State.reset with buf := Vector.replicate 64 0xee, eph := { Ephemeral.reset with t1 := 7, i := 3 }, freeCount := 5 }

/-- The padded block of "abc" (R122). -/
def abcBlock : Block := memWrite (memWrite (Vector.replicate 64 0) 0 [0x61, 0x62, 0x63, 0x80]) 63 [0x18]

/-- The bytes 00, 01, 02, ... of V-D-2 and P5, from a on. -/
def counting (a n : Nat) : List Byte := (List.range' a n).map (BitVec.ofNat 8)

/-! ### Well-formedness: an ill-formed term for the one check (R75) -/

theorem test_payload_of_2_32_bytes_is_ill_formed :
    ∃ p : List Byte, p.length = 4294967296 ∧ (Instr.absorb p).wellFormed = false := by
  have h : ∀ n : Nat, ∃ p : List Byte, p.length = n := fun n => ⟨List.replicate n 0x00, List.length_replicate⟩
  obtain ⟨p, hp⟩ := h 4294967296
  exact ⟨p, hp, by simp [Instr.wellFormed, hp]⟩

theorem test_payload_of_2_32_less_1_bytes_is_well_formed (p : List Byte) (h : p.length = 4294967295) :
    (Instr.absorb p).wellFormed = true := by
  simp [Instr.wellFormed, h]

/-- R81: a string operand with a character that is not printable ASCII is refused, one without is not. -/
theorem test_operand_outside_ascii_is_ill_formed :
    (ByteExpr.ascii "a\n").wellFormed = false ∧ (AsmLine.hash (.ascii "a\n")).event = none ∧
      (AsmLine.byte 0xff).event = some (.send [0xff]) := by
  decide

/-! ### Decoding, each word written out from spec/30_encoding.md: one for every constructor -/

theorem test_decode_init : decode [0b00000001] = .command .init [] := by decide

theorem test_decode_absorb :
    decode [0b00000010, 0x00, 0x00, 0x00, 0x03, 0x61, 0x62, 0x63, 0x03] = .command (.absorb [0x61, 0x62, 0x63]) [0x03] := by
  decide

theorem test_decode_absorb_length_big_endian :
    decode ([0b00000010, 0x00, 0x00, 0x01, 0x02] ++ List.replicate 258 0xaa) =
      .command (.absorb (List.replicate 258 0xaa)) [] := by
  decide +kernel

theorem test_decode_final : decode [0b00000011] = .command .final [] := by decide

theorem test_decode_illegal00 : decode [0b00000000, 0x01] = .command .illegal00 [0x01] := by decide

theorem test_decode_illegal04 : decode [0b00000110] = .command (.illegal04 0b10) [] := by decide

theorem test_decode_illegal08 : decode [0b00001101] = .command (.illegal08 0b101) [] := by decide

theorem test_decode_illegal10 : decode [0b00011001] = .command (.illegal10 0b1001) [] := by decide

theorem test_decode_illegal20 : decode [0b00110001] = .command (.illegal20 0b10001) [] := by decide

theorem test_decode_illegal40 : decode [0b01100001] = .command (.illegal40 0b100001) [] := by decide

theorem test_decode_illegal80 : decode [0b11111111] = .command (.illegal80 0b1111111) [] := by decide

/-- X15: a payload that is not all there. -/
theorem test_decode_waits_for_payload : decode [0x02, 0x00, 0x00, 0x00, 0x05, 0x61, 0x62] = .wait := by decide

theorem test_decode_waits_for_length : decode [0x02, 0x00, 0x00, 0x00] = .wait := by decide

/-- Table bits: an ABSORB given by its opcode byte alone has LEN = 0. -/
theorem test_decodeTableWord_absorb : decodeTableWord 8 0x02 = some (.absorb []) := by decide

/-- Table bits: byte 4 of the instruction is bits 39 to 32, so LEN = 1 and the payload's bits are 0. -/
theorem test_decodeTableWord_absorb_one : decodeTableWord 40 0x0100000002 = some (.absorb [0x00]) := by decide

theorem test_mnemonics :
    [Instr.init, .absorb [], .final, .illegal00, .illegal04 0, .illegal08 0, .illegal10 0, .illegal20 0, .illegal40 0,
      .illegal80 0].map mnemonicOf = opcodeTable.map (·.mnemonic) := by
  decide

theorem test_phase_codes : [Phase.absorbing, .finalized, .faulted].map Phase.code = [0, 1, 2] := by decide

/-! ### Word operations, V-D-1 -/

theorem test_add32 : add32 0xffffffff 0x00000001 = 0x00000000 ∧ add32 0x6a09e667 0x5d6aebcd = 0xc774d234 := by decide

theorem test_rotr : rotr 0x12345678 7 = 0xf02468ac ∧ rotr 0x00000001 25 = 0x00000080 := by decide

theorem test_shr : shr 0x80000000 3 = 0x10000000 ∧ shr 0x12345678 10 = 0x00048d15 := by decide

theorem test_ch : ch 0x510e527f 0x9b05688c 0x1f83d9ab = 0x1f85c98c := by decide

theorem test_maj : maj 0x6a09e667 0xbb67ae85 0x3c6ef372 = 0x3a6fe667 := by decide

theorem test_upper_sigmas : upperS0 0x6a09e667 = 0xce20b47e ∧ upperS1 0x510e527f = 0x3587272b := by decide

theorem test_lower_sigmas : lowerS0 0x12345678 = 0xe7fce6ee ∧ lowerS1 0x12345678 = 0xa1f78649 := by decide

theorem test_be32 : be32 0x61 0x62 0x63 0x80 = 0x61626380 := by decide

theorem test_bytes32 : bytes32 0xba7816bf = [0xba, 0x78, 0x16, 0xbf] := by decide

theorem test_bytes64 : bytes64 0x00000000000001c0 = [0, 0, 0, 0, 0, 0, 0x01, 0xc0] := by decide

/-- V-D-5, length arithmetic at the edge. -/
theorem test_bit_length_wraps :
    bitLength 0x1fffffffffffffff = 0xfffffffffffffff8 ∧ bitLength 0x2000000000000000 = 0 ∧
      lengthAdd 0xffffffffffffffff 2 = 1 := by
  decide

/-- R29: the last of each half of K, and K[32], are where the table has them. -/
theorem test_round_constants :
    roundConstants[0] = 0x428a2f98 ∧ roundConstants[31] = 0x14292967 ∧ roundConstants[32] = 0x27b70a85 ∧
      roundConstants[63] = 0xc67178f2 := by
  decide +kernel

/-! ### Scheduler and compression, R135, R122, V-D-2, V-D-3 -/

theorem test_schedule_abc :
    (schedule abcBlock)[0] = 0x61626380 ∧ (schedule abcBlock)[15] = 0x00000018 ∧ (schedule abcBlock)[17] = 0x000f0000 ∧
      (schedule abcBlock)[19] = 0x600003c6 ∧ (schedule abcBlock)[63] = 0x12b1edeb := by
  decide +kernel

theorem test_round_zero_of_abc :
    (seqRound (seqInitWork (seqSchedule abcBlock State.reset))).eph.t1 = 0x54da50e8 ∧
      (seqRound (seqInitWork (seqSchedule abcBlock State.reset))).eph.t2 = 0x08909ae5 ∧
      (seqRound (seqInitWork (seqSchedule abcBlock State.reset))).eph.work =
        ⟨0x5d6aebcd, 0x6a09e667, 0xbb67ae85, 0x3c6ef372, 0xfa2a4622, 0x510e527f, 0x9b05688c, 0x1f83d9ab⟩ := by
  decide +kernel

/-- R122, rows 15 and 63 of the reference trace. -/
theorem test_rounds_of_abc :
    (seqRounds 16 (seqInitWork (seqSchedule abcBlock State.reset))).eph.work =
        ⟨0xb0fa238e, 0xc0645fde, 0xd932eb16, 0x87912990, 0x07590dcd, 0x0b92f20c, 0x745a48de, 0x1e578218⟩ ∧
      (seqRounds 64 (seqInitWork (seqSchedule abcBlock State.reset))).eph.work =
        ⟨0x506e3058, 0xd39a2165, 0x04d24d6c, 0xb85e2ce9, 0x5ef50f24, 0xfb121210, 0x948d25b6, 0x961f4894⟩ := by
  decide +kernel

theorem test_compress_abc : compress initialHash abcBlock = abcHash := by decide +kernel

theorem test_compress_interleaved_abc : compressInterleaved initialHash abcBlock = abcHash := by decide +kernel

/-! ### INIT -/

/-- R140, worked example: INIT after ABSORB "abc". -/
theorem test_init_discards_message :
    after (·.persistent) (exec .init (holding [0x61, 0x62, 0x63])) =
      some { State.reset.persistent with rsp := [0x00] } := by
  decide +kernel

/-- X9: INIT does not leave FAULTED. -/
theorem test_init_refused_when_faulted :
    after (fun t => (t.phase, t.rsp)) (exec .init faultedState) = some (.faulted, [0x04]) := by
  decide +kernel

/-! ### ABSORB -/

/-- R141, worked example. -/
theorem test_absorb_abc :
    after (·.persistent) (exec (.absorb [0x61, 0x62, 0x63]) State.reset) =
      some ⟨initialHash, [0x61, 0x62, 0x63], 3, 3, .absorbing, [], [0x00]⟩ := by
  decide +kernel

/-- P5 and the worked example of spec/43_streaming.md: a block from BUF, a block from the payload, and a tail. -/
theorem test_absorb_both_paths :
    after (·.persistent) (exec (.absorb (counting 0x0a 130)) (holding (counting 0 10))) =
      some ⟨⟨0x593253ad, 0xfb4cc018, 0xbe611395, 0x485e47c1, 0x5a5b271d, 0xfb8da14f, 0xe8f77fb4, 0xd05eacbc⟩,
        counting 0x80 12, 12, 140, .absorbing, [], [0x00]⟩ := by
  decide +kernel

/-! ### FINAL -/

/-- V-SRC-2. -/
theorem test_final_abc :
    after (·.persistent) (exec .final (holding [0x61, 0x62, 0x63])) =
      some ⟨abcHash, [], 0, 64, .finalized, [],
        [0x00, 0xba, 0x78, 0x16, 0xbf, 0x8f, 0x01, 0xcf, 0xea, 0x41, 0x41, 0x40, 0xde, 0x5d, 0xae, 0x22, 0x23,
          0xb0, 0x03, 0x61, 0xa3, 0x96, 0x17, 0x7a, 0x9c, 0xb4, 0x10, 0xff, 0x61, 0xf2, 0x00, 0x15, 0xad]⟩ := by
  decide +kernel

/-- V-D-5, L = 56: the padding spills into a second block. -/
theorem test_final_spills :
    after (fun t => (t.hash, t.bufLen, t.totalLength)) (exec .final (holding (List.replicate 56 0x61))) =
      some (⟨0xb35439a4, 0xac6f0948, 0xb6d6f9e3, 0xc6af0f5f, 0x590ce20f, 0x1bde7090, 0xef797068, 0x6ec6738a⟩, 0, 128) := by
  decide +kernel

/-! ### ILLEGAL and the steps of part 3 of spec/95_test_vectors.md -/

/-- X1. -/
theorem test_illegal00 : after (·.persistent) (exec (.illegal00) State.reset) =
    some { State.reset.persistent with rsp := [0x01] } := by
  decide +kernel

/-- X3, its first byte. -/
theorem test_illegal04 : after (·.persistent) (exec (.illegal04 0b10) State.reset) =
    some { State.reset.persistent with rsp := [0x01] } := by
  decide +kernel

/-- X13. -/
theorem test_illegal08 : after (·.persistent) (exec (.illegal08 0b001) afterAbc) =
    some { afterAbc.persistent with rsp := [0x01] } := by
  decide +kernel

/-- R181. -/
theorem test_illegal10 : after (·.persistent) (exec (.illegal10 0x0) State.reset) =
    some { State.reset.persistent with rsp := [0x01] } := by
  decide +kernel

/-- R181. -/
theorem test_illegal20 : after (·.persistent) (exec (.illegal20 0x00) afterAbc) =
    some { afterAbc.persistent with rsp := [0x01] } := by
  decide +kernel

/-- R185. -/
theorem test_illegal40 : after (·.persistent) (exec (.illegal40 0x3f) faultedState) =
    some { faultedState.persistent with rsp := [0x01] } := by
  decide +kernel

/-- X2. -/
theorem test_illegal80 : after (·.persistent) (exec (.illegal80 0x7f) State.reset) =
    some { State.reset.persistent with rsp := [0x01] } := by
  decide +kernel

/-- X12: IllegalCommand outranks EngineFaulted. -/
theorem test_step_illegal_when_faulted :
    after (fun t => (t.phase, t.cmd, t.rsp)) (step { faultedState with cmd := [0x00] }) = some (.faulted, [], [0x01]) := by
  decide +kernel

/-- X8, its first command: the payload bytes are discarded, not run. -/
theorem test_step_refused_absorb_consumed_whole :
    after (fun t => (t.hash, t.phase, t.cmd, t.rsp))
      (step { afterAbc with cmd := [0x02, 0x00, 0x00, 0x00, 0x02, 0x01, 0x03, 0x03] }) =
      some (abcHash, .finalized, [0x03], [0x02]) := by
  decide +kernel

/-- X15. -/
theorem test_step_waits : after id (step (withCmd [0x02, 0x00, 0x00, 0x00, 0x05, 0x61, 0x62])) =
    some (withCmd [0x02, 0x00, 0x00, 0x00, 0x05, 0x61, 0x62]) := by
  decide +kernel

/-- X16 and R200: reset loses the partial message and the pending bytes, and keeps RSP. -/
theorem test_reset_event :
    (resetEvent { holding [0x61, 0x62, 0x63] with cmd := [0x03], rsp := [0x00] }).persistent =
      { State.reset.persistent with rsp := [0x00] } := by
  decide +kernel

/-- step runs an instruction placed by its table bits (V-SRC-1 for FINAL right after reset: e3 b0 c4 42 first). -/
theorem test_step_runs_placed_final :
    after (fun t => (t.phase, t.hash.h0)) (step (State.reset.withFetchWord 8 0x03)) = some (.finalized, 0xe3b0c442) := by
  decide +kernel

/-! ### Witnesses: a state and operands that meet the hypotheses of each statement -/

theorem witness_DecodeOfEncodedCommand : (Instr.absorb [0x61]).wellFormed = true ∧ (Instr.illegal80 0x7f).wellFormed = true := by
  decide

theorem witness_EncodeOfDecodedCommand :
    decode [0x02, 0x00, 0x00, 0x00, 0x01, 0x61, 0x03] = .command (.absorb [0x61]) [0x03] := by
  decide

theorem witness_DecoderFollowsOpcodeTable : decode (0x7f :: [0x01]) = .command (.illegal40 0x3f) [0x01] := by decide

theorem witness_LaterBytesKeepTheCommand : decode [0x02, 0x00, 0x00, 0x00, 0x00] = .command (.absorb []) [] := by decide

theorem witness_StepRunsDecodedCommand_command : decode (withCmd [0x03, 0x01]).cmd = .command .final [0x01] := by decide

theorem witness_StepRunsDecodedCommand_wait : decode (withCmd [0x02]).cmd = .wait := by decide

theorem witness_RefusedCommandConsumedWhole_finalized :
    (Instr.absorb [0x01, 0x03]).wellFormed = true ∧ (Instr.absorb [0x01, 0x03]).isIllegal = false ∧
      ({ afterAbc with cmd := encode (.absorb [0x01, 0x03]) ++ [0x03] } : State).cmd = encode (.absorb [0x01, 0x03]) ++ [0x03] ∧
      afterAbc.phase = .finalized ∧ Instr.absorb [0x01, 0x03] ≠ .init := by
  decide

theorem witness_RefusedCommandConsumedWhole_faulted :
    Instr.init.wellFormed = true ∧ Instr.init.isIllegal = false ∧
      ({ faultedState with cmd := encode .init ++ [] } : State).cmd = encode .init ++ [] ∧ faultedState.phase = .faulted := by
  decide

theorem witness_RotationMovesEachBit : 31 < 32 ∧ (rotr 0x00000001 1).getLsbD 31 = (0x00000001 : Word).getLsbD ((31 + 1) % 32) := by
  decide

theorem witness_SigmaFunctionBits : 31 < 32 ∧ (lowerS0 0x00000040).getLsbD 31 = true := by decide

theorem witness_SchedulerRecurrence_load : 15 < 16 ∧ (sched abcBlock (Vector.replicate 64 0))[15] = 0x00000018 := by
  decide +kernel

theorem witness_SchedulerRecurrence_expand : 16 ≤ 63 ∧ 63 < 64 ∧ (sched abcBlock (Vector.replicate 64 0))[63] = 0x12b1edeb := by
  decide +kernel

theorem witness_RoundAssignments_first : State.reset.eph.i.val < 64 := by decide

theorem witness_RoundAssignments_last : ({ Ephemeral.reset with i := 63 } : Ephemeral).i.val < 64 := by decide

theorem witness_InitCreatesFreshDigest_accepted : afterAbc.phase ≠ .faulted := by decide

theorem witness_InitCreatesFreshDigest_refused : faultedState.phase = .faulted := by decide

theorem witness_InitRedundantOnFreshState :
    State.reset.phase = .absorbing ∧ State.reset.hash = initialHash ∧ State.reset.bufLen = 0 ∧ State.reset.totalLength = 0 := by
  decide

theorem witness_AbsorbAppendsToMessage :
    (holding (List.replicate 63 0x61)).phase = .absorbing ∧ (holding (List.replicate 63 0x61)).bufLen.val = 63 := by
  decide +kernel

theorem witness_AbsorbStoresShortPayload :
    (holding [0x61, 0x62, 0x63]).phase = .absorbing ∧
      (holding [0x61, 0x62, 0x63]).bufLen.val + (List.replicate 60 (0x00 : Byte)).length < 64 := by
  decide +kernel

theorem witness_AbsorbFrame_accepted : ∃ t, exec (.absorb [0x61]) State.reset = .next t := ⟨_, rfl⟩

theorem witness_AbsorbFrame_refused : (∃ t, exec (.absorb [0x61]) afterAbc = .next t) ∧ afterAbc.phase ≠ .absorbing :=
  ⟨⟨_, rfl⟩, by decide⟩

theorem witness_ZeroBytesAbsorbedChangeNothing :
    (holding (List.replicate 63 0x61)).bufLen.val ≤ 63 ∧ (holding (List.replicate 63 0x61)).phase = .absorbing := by
  decide +kernel

theorem witness_BufferDrainedAtOnce : (holding (List.replicate 63 0x61)).bufLen.val + [(0x61 : Byte)].length = 64 := by
  decide +kernel

theorem witness_ChunkingInvariance : (holding [0x61]).bufLen.val ≤ 63 := by decide

theorem witness_FinalEmitsDigest_empty : Ready State.reset := by decide

theorem witness_FinalEmitsDigest_full : Ready (holding (List.replicate 63 0x61)) := by decide +kernel

theorem witness_PaddingLayout_one_block : (List.replicate 55 (0x61 : Byte)).length ≤ 63 ∧ (List.replicate 55 (0x61 : Byte)).length ≤ 55 := by
  decide

theorem witness_PaddingLayout_two_blocks_56 : (List.replicate 56 (0x61 : Byte)).length ≤ 63 ∧ 56 ≤ (List.replicate 56 (0x61 : Byte)).length := by
  decide

theorem witness_PaddingLayout_two_blocks_63 : (List.replicate 63 (0x61 : Byte)).length ≤ 63 ∧ 56 ≤ (List.replicate 63 (0x61 : Byte)).length := by
  decide

theorem witness_InternalConsistencyFaultTaken : miscounted.phase = .absorbing ∧ (padAndAbsorb miscounted).bufLen ≠ 0 := by
  decide +kernel

theorem witness_IllegalCommandTaken :
    [Instr.illegal00, .illegal04 3, .illegal08 7, .illegal10 15, .illegal20 31, .illegal40 63, .illegal80 127].all
      (·.isIllegal) = true := by
  decide

theorem witness_IllegalByteConsumedAlone_zero : ((0x00 : Byte) = 0x00 ∨ 0x04 ≤ (0x00 : Byte).toNat) ∧ (withCmd [0x00]).cmd = [0x00] := by
  decide

theorem witness_IllegalByteConsumedAlone_four : ((0x04 : Byte) = 0x00 ∨ 0x04 ≤ (0x04 : Byte).toNat) ∧ (withCmd [0x04, 0x01]).cmd = 0x04 :: [0x01] := by
  decide

theorem witness_IllegalByteConsumedAlone_top : ((0xff : Byte) = 0x00 ∨ 0x04 ≤ (0xff : Byte).toNat) ∧ (withCmd [0xff]).cmd = [0xff] := by
  decide

theorem witness_UseAfterFinalizeTaken :
    afterAbc.phase = .finalized ∧ (Instr.absorb [] = .absorb [] ∨ Instr.absorb [] = .final) ∧
      (Instr.final = .absorb [] ∨ Instr.final = .final) := by
  decide

theorem witness_EngineFaultedUntilReset :
    faultedState.phase = .faulted ∧ Instr.final.isIllegal = false ∧ ∃ t, exec .final faultedState = .next t :=
  ⟨by decide, by decide, _, rfl⟩

theorem witness_OneResponsePerCommand : ∃ t, exec .init State.reset = .next t := ⟨_, rfl⟩

theorem witness_RefusalsChangeNothing_illegal : ∃ t, exec .illegal00 State.reset = .next t ∧ t.rsp = State.reset.rsp ++ [0x01] :=
  ⟨_, rfl, rfl⟩

theorem witness_RefusalsChangeNothing_useAfterFinalize : ∃ t, exec .final afterAbc = .next t ∧ t.rsp = afterAbc.rsp ++ [0x02] :=
  ⟨_, rfl, rfl⟩

theorem witness_RefusalsChangeNothing_engineFaulted : ∃ t, exec .init faultedState = .next t ∧ t.rsp = faultedState.rsp ++ [0x04] :=
  ⟨_, rfl, rfl⟩

theorem witness_PhaseTransitions : ∃ t, exec .init afterAbc = .next t ∧ t.phase ≠ afterAbc.phase :=
  ⟨_, rfl, by decide⟩

theorem witness_DigestImmutableUntilInit :
    afterAbc.phase = .finalized ∧ Instr.final ≠ .init ∧ ∃ t, exec .final afterAbc = .next t :=
  ⟨by decide, by decide, _, rfl⟩

theorem witness_StepKeepsInvariant : BufferInv (withCmd [0x01]) ∧ ∃ t, step (withCmd [0x01]) = .next t :=
  ⟨by decide, _, rfl⟩

theorem witness_StepKeepsInvariant_finalized :
    BufferInv { afterAbc with cmd := [0x03] } ∧ ({ afterAbc with cmd := [0x03] } : State).phase ≠ .faulted := by
  decide

theorem witness_HostEventsKeepInvariant : BufferInv Run.start.state ∧ Run.start.state.phase ≠ .faulted := by decide

theorem witness_EveryRunStaysSafe : Safe Run.start.state := by decide

theorem witness_HiddenStateUnobservable :
    State.reset.persistent = resetWithStaleBytes.persistent ∧ State.reset.buf ≠ resetWithStaleBytes.buf ∧
      State.reset.eph ≠ resetWithStaleBytes.eph := by
  decide +kernel

theorem witness_ConstantsAreRootFractions : 63 < 64 ∧ roundConstants[63] = 0xc67178f2 ∧ 7 < 8 ∧ initialHash.h7 = 0x5be0cd19 := by
  decide +kernel

theorem witness_ReadyCommandsAllExecute : Safe (withCmd [0x01, 0x02]) := by decide

theorem witness_ObservationOnlyGrows :
    ∃ r', Run.start.moves [.host (.send [0x01]), .engine, .host .take] = .next r' ∧ r'.observed = [0x00] :=
  ⟨_, rfl, rfl⟩

theorem witness_ChunkedHashIsReferenceDigest : afterAbc.phase ≠ .faulted := by decide

theorem witness_HashBytesGiveReferenceDigest : afterAbc.phase ≠ .faulted ∧ afterAbc.cmd = [] ∧ (counting 0 3).length < 2 ^ 32 := by
  decide

end Sys2Proof.Tests
end

section
/-! SUPPORT. The iterative machine computes COMPRESS: the schedule does not depend on what W held, the rounds on the registers
are the pure rounds, and so H becomes the pure function of H and the block (R110, R117, R118, R130). -/

namespace Sys2Proof.Machine

theorem loadWords_getElem (blk : Block) (w : Vector Word 64) (n : Nat) (hn : n ≤ 16) (j : Nat) (hj : j < 64) :
    (loadWords blk n hn w)[j] = if h : j < n then blockWord blk ⟨j, by omega⟩ else w[j] := by
  induction n with
  | zero => simp [loadWords]
  | succ n ih =>
    simp only [loadWords, Vector.getElem_set, ih (by omega)]
    by_cases hnj : n = j
    · subst hnj; simp
    · by_cases hlt : j < n
      · simp [hnj, hlt, show j < n + 1 by omega]
      · simp [hnj, hlt, show ¬ j < n + 1 by omega]

/-- The expansions read only words that stand already: from equal words 0 to 15 they make equal words (R132). -/
theorem expandWords_congr (w v : Vector Word 64) (h : ∀ (j : Nat) (hj : j < 16), w[j] = v[j])
    (n : Nat) (hn : n ≤ 48) (j : Nat) (hj : j < n + 16) :
    (expandWords n hn w)[j] = (expandWords n hn v)[j] := by
  induction n generalizing j with
  | zero => exact h j (by omega)
  | succ n ih =>
    have made (k : Nat) (hk : k < n + 16) := ih (by omega) k hk
    simp only [expandWords, Vector.getElem_set]
    split
    · simp only [expandedWord, made n (by omega), made (n + 1) (by omega), made (n + 9) (by omega),
        made (n + 14) (by omega)]
    · exact made j (by omega)

/-- SCHED does not depend on what W held before (R130). -/
theorem sched_eq_schedule (blk : Block) (w : Vector Word 64) : sched blk w = schedule blk := by
  ext j hj : 1
  refine expandWords_congr _ _ (fun k hk => ?_) 48 _ j (by omega)
  simp [loadWords_getElem, hk]

/-- n steps in RND from i = 0 leave i = n and the working variables after n rounds (R113, R118). -/
theorem seqRounds_work (s : State) (h0 : s.eph.i = 0) (n : Nat) (hn : n ≤ 64) :
    (seqRounds n s).eph.i.val = n ∧ (seqRounds n s).eph.work = roundsWork s.eph.w n hn s.eph.work := by
  induction n with
  | zero => simp [seqRounds, roundsWork, h0]
  | succ n ih =>
    obtain ⟨hi, hwork⟩ := ih (by omega)
    obtain ⟨e, he, -, hw⟩ := seqRounds_writes n s
    have hw' : (seqRounds n s).eph.w = s.eph.w := by rw [he]; exact hw
    simp only [seqRounds]
    rw [seqRound_lt _ (by omega)]
    simp only [hi, hwork, hw', roundsWork, and_self]

/-- H after COMPRESS on the iterative machine is the pure function of H and the block (R110, R117, R118). -/
@[simp] theorem compressBlock_hash (blk : Block) (s : State) : (compressBlock blk s).hash = compress s.hash blk := by
  obtain ⟨-, hwork⟩ := seqRounds_work (seqInitWork (seqSchedule blk s)) rfl 64 (Nat.le_refl _)
  obtain ⟨e, he, -, -⟩ := seqRounds_writes 64 (seqInitWork (seqSchedule blk s))
  have hhash : (seqRounds 64 (seqInitWork (seqSchedule blk s))).hash = s.hash := by
    rw [he, seqInitWork_hash, seqSchedule_hash]
  rw [compressBlock, seqFeedback_hash, hhash, hwork]
  simp only [compress, seqInitWork_eph, seqSchedule_eph, seqSchedule_hash, sched_eq_schedule]

end Sys2Proof.Machine
end

section
/-! SUPPORT. The closed form of absorb (R144), in every state: each stage of R142 keeps what H and the left-over bytes will be
once all pending bytes are folded, and at the end nothing is pending. -/

namespace Sys2Proof.Machine

/-- H and the bytes left over once the valid bytes of BUF and then the bytes `x.2` still to come have been cut into blocks
and folded (R144). Every stage of absorb keeps it. -/
def foldPending (x : State × List Byte) : Hash × List Byte :=
  (compressBlocks x.1.hash (blocksOf (x.1.valid ++ x.2)), tailOf (x.1.valid ++ x.2))

/-- With no complete block pending, nothing is folded. -/
theorem foldPending_short (s : State) (r : List Byte) (h : s.bufLen.val + r.length < 64) :
    foldPending (s, r) = (s.hash, s.valid ++ r) := by
  have hlen : (s.valid ++ r).length < 64 := by simpa using h
  simp [foldPending, blocksOf_short _ hlen, tailOf_short _ hlen]

/-- With a complete block pending, its first 64 bytes are compressed into H first. -/
theorem foldPending_block (s t : State) (r q : List Byte) (blk : Block)
    (hbytes : s.valid ++ r = blk.toList ++ (t.valid ++ q)) (hhash : t.hash = compress s.hash blk) :
    foldPending (t, q) = foldPending (s, r) := by
  have hlen : 64 ≤ (blk.toList ++ (t.valid ++ q)).length := by simp
  have hblk : blockOf (blk.toList ++ (t.valid ++ q)) hlen = blk := block_ext (by simp)
  simp [foldPending, hbytes, hhash, blocksOf_cons _ hlen, tailOf_drop _ hlen, hblk]

theorem valid_of_bufLen_zero (s : State) (h : s.bufLen = 0) : s.valid = [] := by
  simp [State.valid, h]

theorem clearBuf_valid (s : State) : (clearBuf s).valid = [] := valid_of_bufLen_zero _ (clearBuf_bufLen _)

theorem foldPending_drainFull (s : State) (r : List Byte) : foldPending (drainFull s, r) = foldPending (s, r) := by
  unfold drainFull
  split
  next hfull =>
    refine foldPending_block _ _ _ _ s.buf ?_ ((clearBuf_hash _).trans (compressBlock_hash _ _))
    rw [clearBuf_valid]
    simp [State.valid, hfull]
  next => rfl

theorem foldPending_appendBuf (p : List Byte) (s : State) (m : Nat) (hm : s.bufLen.val + min m p.length ≤ 64) :
    foldPending (appendBuf (p.take m) s, p.drop m) = foldPending (s, p) := by
  have hv : (appendBuf (p.take m) s).valid = s.valid ++ p.take m := appendBuf_valid _ _ (by simpa using hm)
  simp [foldPending, hv]

theorem foldPending_fillPartial (p : List Byte) (s : State) : foldPending (fillPartial p s) = foldPending (s, p) := by
  unfold fillPartial
  split
  · rfl
  · rw [foldPending_drainFull, memRead_zero, foldPending_appendBuf _ _ _ (by omega)]

theorem drainFull_bufLen (s : State) : (drainFull s).bufLen = if s.bufLen = 64 then 0 else s.bufLen := by
  unfold drainFull
  split
  · rfl
  · rfl

/-- After step 2 the buffer is empty, or the payload is used up and the buffer not full (R142). -/
theorem fillPartial_done (p : List Byte) (s : State) :
    (fillPartial p s).1.bufLen = 0 ∨ ((fillPartial p s).2 = [] ∧ (fillPartial p s).1.bufLen.val < 64) := by
  unfold fillPartial
  split
  next h0 => exact .inl h0
  next =>
    have hlen := appendBuf_bufLen_val (memRead p 0 (min (64 - s.bufLen.val) p.length)) s (by simp; omega)
    simp only [drainFull_bufLen, memRead_zero, List.length_take] at hlen ⊢
    generalize (appendBuf (p.take (min (64 - s.bufLen.val) p.length)) s).bufLen = l at hlen ⊢
    by_cases hfull : l = 64
    · exact .inl (if_pos hfull)
    · have hne : l.val ≠ 64 := fun h => hfull (Fin.ext h)
      rw [if_neg hfull]
      exact .inr ⟨List.drop_eq_nil_of_le (by omega), by omega⟩

theorem foldPending_absorbDirect (n : Nat) (p : List Byte) (s : State) (h0 : s.bufLen = 0) :
    foldPending (absorbDirect n p s) = foldPending (s, p) := by
  induction n generalizing p s with
  | zero => rfl
  | succ n ih =>
    unfold absorbDirect
    split
    next h =>
      rw [ih _ _ (by simpa using h0)]
      refine foldPending_block _ _ _ _ (blockOf p h) ?_ (by simp)
      simp [valid_of_bufLen_zero, h0]
    next => rfl

/-- Step 3 keeps an empty buffer and leaves less than a block, once its bound allows every block (R142). -/
theorem absorbDirect_done (n : Nat) (p : List Byte) (s : State) (h0 : s.bufLen = 0) (hn : p.length ≤ n) :
    (absorbDirect n p s).1.bufLen = 0 ∧ (absorbDirect n p s).2.length < 64 := by
  induction n generalizing p s with
  | zero => exact ⟨h0, by simp only [absorbDirect]; omega⟩
  | succ n ih =>
    unfold absorbDirect
    split
    next h => exact ih _ _ (by simpa using h0) (by simp; omega)
    next h => exact ⟨h0, by simpa using h⟩

/-- Step 4 keeps the tail: with the buffer empty or no tail, it is H, and the valid bytes followed by the tail. -/
theorem storeTail_hash_valid (r : List Byte) (s : State) (h : r = [] ∨ s.bufLen = 0) (hr : r.length < 64) :
    ((storeTail r s).hash, (storeTail r s).valid) = (s.hash, s.valid ++ r) := by
  unfold storeTail
  split
  next hnil => simp [hnil]
  next hne =>
    have h0 : s.bufLen = 0 := h.resolve_left hne
    rw [appendBuf_valid _ _ (by simp; omega)]
    simp [clearBuf_valid, valid_of_bufLen_zero s h0]

/-- The closed form of absorb that R144 infers from R142, in every state. -/
theorem absorb_hash_valid (p : List Byte) (s : State) :
    ((absorb p s).hash, (absorb p s).valid) = foldPending (s, p) := by
  have hfill : foldPending (fillPartial p (addLength p.length s)) = foldPending (s, p) := foldPending_fillPartial _ _
  have hdone := fillPartial_done p (addLength p.length s)
  unfold absorb
  generalize fillPartial p (addLength p.length s) = filled at hfill hdone
  obtain ⟨t, q⟩ := filled
  rw [← hfill]
  obtain h0 | ⟨rfl, hlt⟩ := hdone
  · obtain ⟨h0', hlen⟩ := absorbDirect_done q.length q t h0 (Nat.le_refl _)
    rw [← foldPending_absorbDirect q.length q t h0, storeTail_hash_valid _ _ (.inr h0') hlen]
    exact (foldPending_short _ _ (by simpa [h0'] using hlen)).symm
  · rw [foldPending_short t [] (by simpa using hlt)]
    exact storeTail_hash_valid [] t (.inl rfl) (by simp)

theorem absorb_hash (p : List Byte) (s : State) :
    (absorb p s).hash = compressBlocks s.hash (blocksOf (s.valid ++ p)) :=
  congrArg Prod.fst (absorb_hash_valid p s)

theorem absorb_valid (p : List Byte) (s : State) : (absorb p s).valid = tailOf (s.valid ++ p) :=
  congrArg Prod.snd (absorb_hash_valid p s)

theorem absorb_bufLen (p : List Byte) (s : State) : (absorb p s).bufLen.val = (s.bufLen.val + p.length) % 64 := by
  rw [← valid_length, absorb_valid, tailOf_length, List.length_append, valid_length]

end Sys2Proof.Machine
end

section
/-! PROOFS. Commands act on the architectural part of a state as a function of it; from that O48, O38 and O41 are settled. -/

namespace Sys2Proof.Machine

/-- absorb on the architectural part of a state, in the closed form of R144. -/
def Persistent.absorb (p : List Byte) (v : Persistent) : Persistent :=
  { v with
    hash := compressBlocks v.hash (blocksOf (v.valid ++ p))
    valid := tailOf (v.valid ++ p)
    bufLen := Fin.ofNat 65 ((v.bufLen.val + p.length) % 64)
    totalLength := lengthAdd v.totalLength p.length }

/-- Steps 1 to 4 of finalize on the architectural part: of the ephemeral registers they read only BITLEN, and that only
after latching it (R161). -/
def Persistent.padAndAbsorb (v : Persistent) : Persistent :=
  let one := v.absorb [padByte]
  (one.absorb (List.replicate (zeroCount one.totalLength) 0x00)).absorb (bytes64 (bitLength v.totalLength))

/-- A response on the architectural part (R78). -/
def Persistent.respond (status : Byte) (more : List Byte) (v : Persistent) : Persistent :=
  { v with rsp := v.rsp ++ status :: more }

/-- The fresh Digest State of R34 and R140 on the architectural part. -/
def Persistent.fresh (v : Persistent) : Persistent :=
  { v with hash := initialHash, valid := [], bufLen := 0, totalLength := 0, phase := .absorbing }

/-- The end of an accepted FINAL on the architectural part: the check of step 5, then the digest (R161, R165, R183). -/
def Persistent.finish (v : Persistent) : Persistent :=
  if v.bufLen = 0 then { v with phase := .finalized }.respond 0x00 (digestBytes v.hash)
  else { v with phase := .faulted }.respond 0x03 []

/-- The meaning of a command on the architectural part, the refusals in the order of R185. -/
def Persistent.exec (i : Instr) (v : Persistent) : Persistent :=
  if i.isIllegal then v.respond 0x01 []
  else if v.phase = .faulted then v.respond 0x04 []
  else if i ≠ .init ∧ v.phase = .finalized then v.respond 0x02 []
  else match i with
    | .absorb p => (v.absorb p).respond 0x00 []
    | .final => v.padAndAbsorb.finish
    | _ => v.fresh.respond 0x00 []

theorem absorb_persistent (p : List Byte) (s : State) : (absorb p s).persistent = s.persistent.absorb p := by
  have hlen : (absorb p s).bufLen = Fin.ofNat 65 ((s.bufLen.val + p.length) % 64) := by
    apply Fin.ext
    rw [absorb_bufLen]
    simp only [Fin.ofNat]; omega
  simp only [State.persistent, Persistent.absorb, absorb_hash, absorb_valid, hlen, absorb_totalLength, absorb_phase,
    absorb_cmd, absorb_rsp]

theorem padAndAbsorb_persistent (s : State) : (padAndAbsorb s).persistent = s.persistent.padAndAbsorb := by
  have hone := absorb_persistent [padByte] (latchBitLen s)
  rw [latchBitLen_persistent] at hone
  have htotal : (absorb [padByte] (latchBitLen s)).totalLength = (s.persistent.absorb [padByte]).totalLength :=
    congrArg Persistent.totalLength hone
  have hbits : (latchBitLen s).eph.bitLen = bitLength s.persistent.totalLength := rfl
  simp only [padAndAbsorb, absorbBitLen, absorbZeros, absorb_persistent, absorb_bitLen, hone, htotal, hbits,
    Persistent.padAndAbsorb]

theorem persistent_respond (c : Byte) (bs : List Byte) (s : State) :
    (respond c bs s).persistent = s.persistent.respond c bs := rfl

theorem freshDigest_persistent (s : State) : (freshDigest s).persistent = s.persistent.fresh := by
  have hvalid : (freshDigest s).valid = [] := valid_of_bufLen_zero _ (freshDigest_bufLen s)
  simp [State.persistent, Persistent.fresh, hvalid]

theorem finish_persistent_of_empty (s : State) (h : s.bufLen = 0) :
    s.persistent.finish = (respond 0x00 (digestBytes s.hash) (setPhase .finalized s)).persistent := if_pos h

theorem finish_persistent_of_nonempty (s : State) (h : s.bufLen ≠ 0) :
    s.persistent.finish = (respond 0x03 [] (setPhase .faulted s)).persistent := if_neg h

/-- Every command answers a next state, whose architectural part is a function of the architectural part before: what
R36 and R37 leave out is neither read nor seen. -/
theorem exec_next_persistent (i : Instr) (s : State) :
    ∃ t, exec i s = .next t ∧ t.persistent = s.persistent.exec i := by
  have hphase : s.persistent.phase = s.phase := rfl
  obtain ⟨hi, h⟩ | ⟨hi, hp, h⟩ | ⟨hi, hne, hp, h⟩ | ⟨rfl, hp, h⟩ | ⟨p, rfl, hp, h⟩ | ⟨rfl, hp, h0, h⟩ |
    ⟨rfl, hp, h0, h⟩ := exec_cases i s
  all_goals refine ⟨_, h, ?_⟩
  · simp [persistent_respond, Persistent.exec, hi]
  · simp [persistent_respond, Persistent.exec, hi, hphase, hp]
  · simp [persistent_respond, Persistent.exec, hi, hne, hphase, hp]
  · simp [persistent_respond, freshDigest_persistent, Persistent.exec, Instr.isIllegal, hphase, hp]
  · simp [persistent_respond, absorb_persistent, Persistent.exec, Instr.isIllegal, hphase, hp]
  · rw [← finish_persistent_of_nonempty _ h0, padAndAbsorb_persistent]
    simp [Persistent.exec, Instr.isIllegal, hphase, hp]
  · rw [← finish_persistent_of_empty _ h0, padAndAbsorb_persistent]
    simp [Persistent.exec, Instr.isIllegal, hphase, hp]

/-- Commands do not tell apart states with one architectural part. -/
theorem exec_persistent_congr (i : Instr) {s t : State} (h : s.persistent = t.persistent) :
    ∃ s' t', exec i s = .next s' ∧ exec i t = .next t' ∧ s'.persistent = t'.persistent := by
  obtain ⟨s', hs, hs'⟩ := exec_next_persistent i s
  obtain ⟨t', ht, ht'⟩ := exec_next_persistent i t
  exact ⟨s', t', hs, ht, by rw [hs', ht', h]⟩

theorem step_of_wait {s : State} (h : decode s.cmd = .wait) : step s = .next s := by
  simp only [step, fetch, h]

theorem step_of_command {s : State} {i : Instr} {rest : List Byte} (h : decode s.cmd = .command i rest) :
    step s = exec i (consume rest s) := by
  simp only [step, fetch, h]

/-- Steps do not tell apart states with one architectural part: the decoder reads CMD alone (R79). -/
theorem step_persistent_congr {s t : State} (h : s.persistent = t.persistent) :
    ∃ s' t', step s = .next s' ∧ step t = .next t' ∧ s'.persistent = t'.persistent := by
  obtain ⟨-, -, -, -, -, hcmd, -⟩ := persistent_fields h
  cases hd : decode s.cmd with
  | wait => exact ⟨s, t, step_of_wait hd, step_of_wait (hcmd ▸ hd), h⟩
  | command i rest =>
    rw [step_of_command hd, step_of_command (hcmd ▸ hd)]
    exact exec_persistent_congr i (by rw [consume_persistent, consume_persistent, h])

/-- Settles O48: exec and step act on the architectural part as functions of it. -/
theorem hiddenStateUnobservable : Obligations.HiddenStateUnobservable :=
  ⟨fun i _ _ h => exec_persistent_congr i h, fun _ _ h => step_persistent_congr h⟩

/-- A command only answers a status byte, as every refusal does (R186), or its response begins with 0x00 or 0x03. -/
theorem exec_only_answers_or_status {i : Instr} {s t : State} (h : exec i s = .next t) :
    (∃ c, t = respond c [] s) ∨ ∃ c more, (c = 0x00 ∨ c = 0x03) ∧ t.rsp = s.rsp ++ c :: more := by
  obtain ⟨-, h'⟩ | ⟨-, -, h'⟩ | ⟨-, -, -, h'⟩ | ⟨-, -, h'⟩ | ⟨p, -, -, h'⟩ | ⟨-, -, -, h'⟩ | ⟨-, -, -, h'⟩ :=
    exec_cases i s
  all_goals
    rw [h'] at h
    simp only [Host.Outcome.next.injEq] at h
    subst h
  · exact .inl ⟨_, rfl⟩
  · exact .inl ⟨_, rfl⟩
  · exact .inl ⟨_, rfl⟩
  · exact .inr ⟨0x00, [], .inl rfl, by simp⟩
  · exact .inr ⟨0x00, [], .inl rfl, by simp⟩
  · exact .inr ⟨0x03, [], .inr rfl, by simp⟩
  · exact .inr ⟨0x00, digestBytes (padAndAbsorb s).hash, .inl rfl, by simp⟩

/-- Settles O38: a command whose status is neither 0x00 nor 0x03 only answers. -/
theorem refusalsChangeNothing : Obligations.RefusalsChangeNothing := by
  intro i s t c hexec hrsp hc
  obtain ⟨d, rfl⟩ | ⟨d, more, hd, hrsp'⟩ := exec_only_answers_or_status hexec
  · have hdc : d = c := by simpa using hrsp
    subst hdc
    exact ⟨_, _, rfl⟩
  · have hdc : d = c := (by simpa using hrsp'.symm.trans hrsp : d = c ∧ more = []).1
    subst hdc
    obtain rfl | rfl := hd <;> exact absurd hc (by decide)

/-- Settles O41: every command answers a next state, and a step executes one or waits. -/
theorem everyCommandAnswersNextState : Obligations.EveryCommandAnswersNextState := by
  have hexec (i : Instr) (s : State) : ∃ t, exec i s = .next t :=
    (exec_next_persistent i s).imp fun _ h => h.1
  refine ⟨hexec, fun s => ?_⟩
  cases hd : decode s.cmd with
  | wait => exact ⟨s, step_of_wait hd⟩
  | command i rest => rw [step_of_command hd]; exact hexec i _

end Sys2Proof.Machine
end

section
/-! PROOFS. What the host and the engine can do in a run to PHASE, to the invariant of R31 and to RSP: O39, O44 and O50, and
the reset values O42, O46 and O47. -/

namespace Sys2Proof.Machine

/-- Settles O39: of the seven ways a command can end, only INIT and the two ends of an accepted FINAL write PHASE. -/
theorem phaseTransitions : Obligations.PhaseTransitions := by
  intro i s t h
  obtain ⟨-, h'⟩ | ⟨-, -, h'⟩ | ⟨-, -, -, h'⟩ | ⟨rfl, hp, h'⟩ | ⟨p, -, -, h'⟩ | ⟨rfl, hp, -, h'⟩ | ⟨rfl, hp, -, h'⟩ :=
    exec_cases i s
  all_goals
    rw [h'] at h
    simp only [Host.Outcome.next.injEq] at h
    subst h
  · exact .inl (respond_phase ..)
  · exact .inl (respond_phase ..)
  · exact .inl (respond_phase ..)
  · cases hs : s.phase with
    | absorbing => exact .inl (by simp)
    | finalized => exact .inr (.inl (by simp))
    | faulted => exact absurd hs hp
  · exact .inl (by simp)
  · exact .inr (.inr (by simp [hp]))
  · exact .inr (.inr (by simp [hp]))

/-- An empty buffer and a zero count while ABSORBING meet the invariant of R31. -/
theorem safe_of_fresh {s : State} (hphase : s.phase = .absorbing) (hlen : s.bufLen = 0) (htotal : s.totalLength = 0) :
    Safe s := by
  simp [Safe, BufferInv, hphase, hlen, htotal]

/-- Settles O42: the Digest State of State.reset is fresh. -/
theorem invariantHoldsAtReset : Obligations.InvariantHoldsAtReset := safe_of_fresh rfl rfl rfl

/-- Settles O46: each value is the one State.reset names. -/
theorem resetValues : Obligations.ResetValues :=
  ⟨rfl, rfl, fun _ _ => Vector.getElem_replicate .., rfl, rfl, rfl⟩

/-- Settles O47, from what the reset event writes in each field. -/
theorem resetEventDiscardsCommands : Obligations.ResetEventDiscardsCommands := fun s =>
  ⟨resetEvent_hash s, resetEvent_bufLen s, fun _ _ => by simp, resetEvent_totalLength s, resetEvent_phase s,
    resetEvent_cmd s, resetEvent_rsp s⟩

theorem Run.host_send (bs : List Byte) (r : Run) : r.host (.send bs) = { r with state := send bs r.state } := rfl

theorem Run.host_reset (r : Run) : r.host .reset = { r with state := resetEvent r.state } := rfl

theorem Run.host_take_nil {r : Run} (h : r.state.rsp = []) : r.host .take = r := by
  simp [Run.host, takeByte, h]

theorem Run.host_take_cons {r : Run} {b : Byte} {q : List Byte} (h : r.state.rsp = b :: q) :
    r.host .take = ⟨{ r.state with rsp := q }, r.taken ++ [b]⟩ := by
  simp [Run.host, takeByte, h]

/-- Sending and taking touch the channels only: the registers that R31 speaks of stay (R35). -/
theorem Run.host_keeps_registers {e : HostEvent} (he : e ≠ .reset) (r : Run) :
    (r.host e).state.phase = r.state.phase ∧ (r.host e).state.bufLen = r.state.bufLen ∧
      (r.host e).state.totalLength = r.state.totalLength := by
  cases e with
  | send bs => simp [Run.host_send]
  | reset => exact absurd rfl he
  | take =>
    cases hrsp : r.state.rsp with
    | nil => simp [Run.host_take_nil hrsp]
    | cons b q => simp [Run.host_take_cons hrsp]

theorem Run.host_reset_safe (r : Run) : Safe (r.host .reset).state :=
  safe_of_fresh (resetEvent_phase _) (resetEvent_bufLen _) (resetEvent_totalLength _)

/-- Settles O44: reset makes a fresh Digest State, and the other host events keep the registers that R31 speaks of. -/
theorem hostEventsKeepInvariant : Obligations.HostEventsKeepInvariant := by
  intro e r
  have hreset : Safe (r.host .reset).state := r.host_reset_safe
  by_cases he : e = .reset
  · subst he
    exact ⟨fun _ => hreset.1, fun _ => hreset.2, hreset⟩
  · obtain ⟨hphase, hlen, htotal⟩ := Run.host_keeps_registers he r
    refine ⟨fun hinv => ?_, fun hne => hphase.symm ▸ hne, hreset⟩
    simpa only [BufferInv, hphase, hlen, htotal] using hinv

/-- A command only appends to RSP (R35, R78). -/
theorem exec_extends_rsp {i : Instr} {s t : State} (h : exec i s = .next t) : s.rsp <+: t.rsp := by
  obtain ⟨c, rfl⟩ | ⟨c, more, -, hrsp⟩ := exec_only_answers_or_status h
  · exact ⟨[c], (respond_rsp ..).symm⟩
  · exact ⟨c :: more, hrsp.symm⟩

theorem step_extends_rsp {s t : State} (h : step s = .next t) : s.rsp <+: t.rsp := by
  cases hd : decode s.cmd with
  | wait =>
    rw [step_of_wait hd] at h
    simp only [Host.Outcome.next.injEq] at h
    rw [h]
  | command i rest =>
    rw [step_of_command hd] at h
    exact consume_rsp rest s ▸ exec_extends_rsp h

/-- A host event keeps the observation: a byte taken from RSP stands at the end of those taken (R210). -/
theorem Run.host_observed (e : HostEvent) (r : Run) : (r.host e).observed = r.observed := by
  cases e with
  | send bs => simp [Run.host_send, Run.observed]
  | reset => simp [Run.host_reset, Run.observed]
  | take =>
    cases hrsp : r.state.rsp with
    | nil => rw [Run.host_take_nil hrsp]
    | cons b q => simp [Run.host_take_cons hrsp, Run.observed, hrsp]

theorem Run.move_extends_observed {m : Move} {r r' : Run} (h : r.move m = .next r') : r.observed <+: r'.observed := by
  cases m with
  | host e =>
    simp only [Run.move, Host.Outcome.next.injEq] at h
    rw [← h, Run.host_observed]
  | engine =>
    obtain ⟨t, ht⟩ := everyCommandAnswersNextState.2 r.state
    simp only [Run.move, ht, Host.Outcome.next.injEq] at h
    obtain ⟨more, hmore⟩ := step_extends_rsp ht
    exact ⟨more, by simp [← h, Run.observed, ← hmore]⟩

theorem Run.moves_extend_observed {ms : List Move} {r r' : Run} (h : r.moves ms = .next r') :
    r.observed <+: r'.observed := by
  induction ms generalizing r with
  | nil =>
    simp only [Run.moves, Host.Outcome.next.injEq] at h
    rw [h]
  | cons m ms ih =>
    unfold Run.moves at h
    split at h
    next r₁ hmove => exact (Run.move_extends_observed hmove).trans (ih h)
    next => cases h
    next => cases h

/-- Settles O50, by induction on the moves: each one keeps the observation or appends to it. -/
theorem observationOnlyGrows : Obligations.ObservationOnlyGrows := by
  intro ms r r' h
  obtain ⟨more, hmore⟩ := Run.moves_extend_observed h
  exact ⟨more, hmore.symm⟩

end Sys2Proof.Machine
end

section
/-! PROOFS. K and H0 are the root fractions of the first primes (O20): in the list of the primes below a bound each stands in
the place that counts the primes below it, and the roots are Mathlib's Nat.nthRoot. -/

namespace Sys2Proof.Machine

/-- The primes below n, in order. -/
def primesBelow (n : Nat) : List Nat := (List.range n).filter (Nat.Prime ·)

theorem primesBelow_succ_prime {n : Nat} (hn : n.Prime) : primesBelow (n + 1) = primesBelow n ++ [n] := by
  simp [primesBelow, List.range_succ, hn]

theorem primesBelow_succ_not_prime {n : Nat} (hn : ¬ n.Prime) : primesBelow (n + 1) = primesBelow n := by
  simp [primesBelow, List.range_succ, hn]

theorem primesBelow_length (n : Nat) : (primesBelow n).length = n.count Nat.Prime := by
  rw [primesBelow, ← List.countP_eq_length_filter, Nat.count]

/-- The list is in order: the prime in place i has i primes below it. -/
theorem primesBelow_getElem (n i : Nat) (hi : i < (primesBelow n).length) :
    (primesBelow n)[i].Prime ∧ (primesBelow n)[i].count Nat.Prime = i := by
  induction n with
  | zero => exact absurd hi (Nat.not_lt_zero i)
  | succ n ih =>
    by_cases hn : n.Prime
    · simp only [primesBelow_succ_prime hn, List.length_append, List.length_singleton] at hi ⊢
      by_cases hold : i < (primesBelow n).length
      · simpa only [List.getElem_append_left hold] using ih hold
      · have hlast : i = n.count Nat.Prime := by rw [← primesBelow_length]; omega
        rw [List.getElem_append_right (by omega)]
        simp [hn, hlast]
    · simp only [primesBelow_succ_not_prime hn] at hi ⊢
      exact ih hi

/-- The same list by trial division up to the square root, which the kernel evaluates much faster. -/
theorem primesBelow_eq_trial_division (n : Nat) :
    primesBelow n = (List.range n).filter fun m => decide (2 ≤ m ∧ ∀ d < m.sqrt + 1, 2 ≤ d → ¬ d ∣ m) := by
  refine List.filter_congr fun m _ => decide_eq_decide.2 ?_
  rw [Nat.prime_def_le_sqrt]
  exact and_congr_right fun _ => forall_congr' fun d => by rw [Nat.lt_succ_iff]; exact imp.swap

/-- The first 32 bits of the fractional part of the k-th root of p, as G3 defines the constants: the root times 2^32, rounded
down, without the bits of its integer part. -/
def rootFraction (k p : Nat) : Nat := Nat.nthRoot k (p * 2 ^ (32 * k)) % 2 ^ 32

/-- What a table of words means that is, in order, the root fractions of the primes below a bound (G3). -/
theorem exists_prime_root_of_table {k m bound : Nat} (hk : k ≠ 0) {table : Vector Word m}
    (h : table.toList.map BitVec.toNat = (primesBelow bound).map (rootFraction k)) (i : Nat) (hi : i < m) :
    ∃ p n : Nat, p.Prime ∧ p.count Nat.Prime = i ∧
      n ^ k ≤ p * 2 ^ (32 * k) ∧ p * 2 ^ (32 * k) < (n + 1) ^ k ∧ table[i].toNat = n % 2 ^ 32 := by
  have hlen : i < (primesBelow bound).length := by
    have hlength : m = (primesBelow bound).length := by simpa using congrArg List.length h
    exact hlength ▸ hi
  obtain ⟨hprime, hcount⟩ := primesBelow_getElem bound i hlen
  have hword := List.getElem_of_eq h (i := i) (by simpa using hi)
  rw [List.getElem_map, List.getElem_map, Vector.getElem_toList] at hword
  exact ⟨_, _, hprime, hcount, Nat.pow_nthRoot_le (.inl hk), Nat.lt_pow_nthRoot_add_one hk _, hword⟩

/-- The table of R29, checked against its definition: 64 primes are below 312. -/
theorem roundConstants_eq_rootFractions :
    roundConstants.toList.map BitVec.toNat = (primesBelow 312).map (rootFraction 3) := by
  rw [primesBelow_eq_trial_division]
  decide +kernel

/-- The words of R30 in index order, checked against their definition: eight primes are below 20. -/
theorem initialHash_eq_rootFractions :
    #v[initialHash.h0, initialHash.h1, initialHash.h2, initialHash.h3, initialHash.h4, initialHash.h5, initialHash.h6,
      initialHash.h7].toList.map BitVec.toNat = (primesBelow 20).map (rootFraction 2) := by
  rw [primesBelow_eq_trial_division]
  decide +kernel

/-- Settles O20: both tables are, in order, the root fractions of the primes below a bound. -/
theorem constantsAreRootFractions : Obligations.ConstantsAreRootFractions :=
  ⟨exists_prime_root_of_table (by decide) roundConstants_eq_rootFractions,
    exists_prime_root_of_table (by decide) initialHash_eq_rootFractions⟩

end Sys2Proof.Machine
end

section
/-! SUPPORT. A word and its four bytes (R100). -/

namespace Sys2Proof.Machine

/-- The first byte of a word is the most significant (R51, R100). -/
theorem be32_toNat (b1 b2 b3 b4 : Byte) :
    (be32 b1 b2 b3 b4).toNat = b1.toNat * 2 ^ 24 + b2.toNat * 2 ^ 16 + b3.toNat * 2 ^ 8 + b4.toNat := by
  rw [be32, BitVec.toNat_append, BitVec.toNat_append, BitVec.toNat_append,
    ← Nat.shiftLeft_add_eq_or_of_lt b4.isLt, ← Nat.shiftLeft_add_eq_or_of_lt b3.isLt,
    ← Nat.shiftLeft_add_eq_or_of_lt b2.isLt]
  simp only [Nat.shiftLeft_eq]
  omega

/-- The bytes of a word, put together again, are the word (R100). -/
theorem be32_bytes32 (w : Word) :
    be32 (w.extractLsb' 24 8) (w.extractLsb' 16 8) (w.extractLsb' 8 8) (w.extractLsb' 0 8) = w := by
  have hw := w.isLt
  apply BitVec.eq_of_toNat_eq
  simp only [be32_toNat, BitVec.extractLsb'_toNat, Nat.shiftRight_eq_div_pow]
  omega

theorem bytes32_be32 (b1 b2 b3 b4 : Byte) : bytes32 (be32 b1 b2 b3 b4) = [b1, b2, b3, b4] := by
  simp only [bytes32, List.cons.injEq, and_true, BitVec.toNat_eq, BitVec.extractLsb'_toNat, Nat.shiftRight_eq_div_pow,
    be32_toNat]
  omega

end Sys2Proof.Machine
end

section
/-! PROOFS. The decoder and the encoder are inverse to each other (R71 to R79); from that O2, O3, O4 and O6 are settled, and
beside it when the decoder waits (O5) and the worked encodings (O1). -/

namespace Sys2Proof

open Sys2Proof.Machine

/-- An ABSORB whose bytes are all there, with any bytes behind it. -/
theorem decode_encode_absorb (p rest : List Byte) (h : p.length < 2 ^ 32) :
    decode (encode (.absorb p) ++ rest) = .command (.absorb p) rest := by
  have hlen : (BitVec.ofNat 32 p.length).toNat = p.length := by
    rw [BitVec.toNat_ofNat, Nat.mod_eq_of_lt h]
  rw [encode, opcodeOf, List.cons_append, decode_absorb_opcode, bytes32]
  simp [decodeAbsorb_header, be32_bytes32, hlen]

/-- An ABSORB decoded from a header that is all there: its bytes are the header and the payload (R75). -/
theorem encode_absorb_header (b1 b2 b3 b4 : Byte) (p : List Byte) (h : p.length = (be32 b1 b2 b3 b4).toNat) :
    encode (.absorb p) = 0x02 :: b1 :: b2 :: b3 :: b4 :: p := by
  simp [encode, opcodeOf, h, bytes32_be32]

/-- What a decoded ABSORB was decoded from. -/
theorem decodeAbsorb_command {q rest : List Byte} {i : Instr} (h : decodeAbsorb q = .command i rest) :
    i.wellFormed = true ∧ 0x02 :: q = encode i ++ rest := by
  match q with
  | b1 :: b2 :: b3 :: b4 :: q =>
    rw [decodeAbsorb_header] at h
    split at h
    next => cases h
    next hlen =>
      obtain ⟨rfl, rfl⟩ := by simpa only [Decoded.command.injEq] using h
      have htake : (q.take (be32 b1 b2 b3 b4).toNat).length = (be32 b1 b2 b3 b4).toNat := by simp; omega
      refine ⟨?_, ?_⟩
      · simpa only [Instr.wellFormed, decide_eq_true_eq, htake] using (be32 b1 b2 b3 b4).isLt
      · rw [encode_absorb_header _ _ _ _ _ htake]; simp
  | [] | [_] | [_, _] | [_, _, _] => cases h

theorem encode_of_isIllegal {i : Instr} (h : i.isIllegal = true) : encode i = [opcodeOf i] := by
  cases i with
  | init | absorb _ | final => cases h
  | _ => rfl

theorem wellFormed_of_isIllegal {i : Instr} (h : i.isIllegal = true) : i.wellFormed = true := by
  cases i with
  | init | absorb _ | final => cases h
  | _ => rfl

/-- No opcode byte of an ILLEGAL row is that of a legal command, and the row and the free bits are read back from it (R76). -/
theorem illegalOf_opcodeOf {i : Instr} (h : i.isIllegal = true) :
    opcodeOf i ≠ 0x01 ∧ opcodeOf i ≠ 0x02 ∧ opcodeOf i ≠ 0x03 ∧ illegalOf (opcodeOf i) = i := by
  cases i with
  | init | absorb _ | final => cases h
  | illegal00 => decide
  | illegal04 low => revert low; decide
  | illegal08 low => revert low; decide
  | illegal10 low => revert low; decide
  | illegal20 low => revert low; decide +kernel
  | illegal40 low => revert low; decide +kernel
  | illegal80 low => revert low; decide +kernel

theorem opcodeOf_illegalOf : ∀ op : Byte, op ≠ 0x01 → op ≠ 0x02 → op ≠ 0x03 → opcodeOf (illegalOf op) = op := by
  decide +kernel

theorem decode_encode_illegal {i : Instr} (h : i.isIllegal = true) (rest : List Byte) :
    decode (encode i ++ rest) = .command i rest := by
  obtain ⟨h1, h2, h3, hi⟩ := illegalOf_opcodeOf h
  rw [encode_of_isIllegal h, List.singleton_append, decode_illegal _ _ h1 h2 h3, hi]

/-- Settles O2: format A and format N each decode to the command they were made from. -/
theorem decodeOfEncodedCommand : Obligations.DecodeOfEncodedCommand := by
  intro i rest hwf
  cases i with
  | init => exact decode_init rest
  | final => exact decode_final rest
  | absorb p => exact decode_encode_absorb p rest (by simpa [Instr.wellFormed] using hwf)
  | _ => exact decode_encode_illegal rfl rest

/-- Settles O3, by the branches of the decoder. -/
theorem encodeOfDecodedCommand : Obligations.EncodeOfDecodedCommand := by
  intro q i rest h
  match q with
  | [] => cases h
  | op :: q =>
    by_cases h1 : op = 0x01
    · subst h1
      obtain ⟨rfl, rfl⟩ := by simpa only [decode_init, Decoded.command.injEq] using h
      exact ⟨rfl, rfl⟩
    by_cases h2 : op = 0x02
    · subst h2
      exact decodeAbsorb_command h
    by_cases h3 : op = 0x03
    · subst h3
      obtain ⟨rfl, rfl⟩ := by simpa only [decode_final, Decoded.command.injEq] using h
      exact ⟨rfl, rfl⟩
    · obtain ⟨rfl, rfl⟩ := by simpa only [decode_illegal op q h1 h2 h3, Decoded.command.injEq] using h
      have hill := illegalOf_isIllegal op
      refine ⟨wellFormed_of_isIllegal hill, ?_⟩
      rw [encode_of_isIllegal hill, opcodeOf_illegalOf op h1 h2 h3, List.singleton_append]

/-- Settles O6: what was decoded is an encoding, and an encoding is decoded whatever follows. -/
theorem laterBytesKeepTheCommand : Obligations.LaterBytesKeepTheCommand := by
  intro q more i rest h
  obtain ⟨hwf, rfl⟩ := encodeOfDecodedCommand q i rest h
  rw [List.append_assoc]
  exact decodeOfEncodedCommand i (rest ++ more) hwf

/-- The rows of the opcode table, for every command. -/
theorem opcodeRow_statement (i : Instr) : Laws.OpcodeRow.Statement i := by
  cases i with
  | init => exact Laws.OpcodeRow.init
  | absorb p => exact Laws.OpcodeRow.absorb p
  | final => exact Laws.OpcodeRow.final
  | illegal00 => exact Laws.OpcodeRow.illegal00
  | illegal04 low => exact Laws.OpcodeRow.illegal04 low
  | illegal08 low => exact Laws.OpcodeRow.illegal08 low
  | illegal10 low => exact Laws.OpcodeRow.illegal10 low
  | illegal20 low => exact Laws.OpcodeRow.illegal20 low
  | illegal40 low => exact Laws.OpcodeRow.illegal40 low
  | illegal80 low => exact Laws.OpcodeRow.illegal80 low

/-- Settles O4: the byte decoded is the command's opcode byte, and of that the table's rows were checked. -/
theorem decoderFollowsOpcodeTable : Obligations.DecoderFollowsOpcodeTable := by
  intro op q i rest h r hr
  obtain ⟨-, hq⟩ := encodeOfDecodedCommand (op :: q) i rest h
  obtain ⟨hhead, hselects, honly⟩ := opcodeRow_statement i
  obtain ⟨bs, hbs⟩ := List.head?_eq_some_iff.1 hhead
  obtain ⟨rfl, -⟩ := by simpa only [hbs, List.cons_append, List.cons.injEq] using hq
  exact ⟨honly r hr, fun h => h ▸ hselects⟩

/-- ABSORB waits exactly while a LEN byte or a payload byte is missing (R79, R80). -/
theorem decodeAbsorb_eq_wait_iff (q : List Byte) :
    decodeAbsorb q = .wait ↔ q.length < 4 ∨ ∃ b1 b2 b3 b4 p, q = b1 :: b2 :: b3 :: b4 :: p ∧
      p.length < b1.toNat * 2 ^ 24 + b2.toNat * 2 ^ 16 + b3.toNat * 2 ^ 8 + b4.toNat := by
  match q with
  | b1 :: b2 :: b3 :: b4 :: p =>
    have hsplit (n : Nat) : (if p.length < n then Decoded.wait else .command (.absorb (p.take n)) (p.drop n)) = .wait ↔
        p.length < n := by
      split <;> simp [*]
    rw [decodeAbsorb_header, hsplit, be32_toNat]
    refine ⟨fun h => .inr ⟨b1, b2, b3, b4, p, rfl, h⟩, fun h => ?_⟩
    obtain h | ⟨_, _, _, _, _, hq, h⟩ := h
    · simp only [List.length_cons] at h; omega
    · obtain ⟨rfl, rfl, rfl, rfl, rfl⟩ := by simpa only [List.cons.injEq] using hq
      exact h
  | [] | [_] | [_, _] | [_, _, _] => exact iff_of_true rfl (.inl (by simp))

/-- Every other opcode byte is decoded at once. -/
theorem decode_ne_wait {op : Byte} (q : List Byte) (h2 : op ≠ 0x02) : decode (op :: q) ≠ .wait := by
  rw [decode, if_neg h2]
  split
  · exact nofun
  · split
    · exact nofun
    · exact nofun

/-- Settles O5: CMD is empty, or its first byte is that of ABSORB. -/
theorem decoderWaitsForIncompleteAbsorb : Obligations.DecoderWaitsForIncompleteAbsorb := by
  intro q
  match q with
  | [] => exact iff_of_true rfl (.inl rfl)
  | op :: q =>
    by_cases h2 : op = 0x02
    · subst h2
      rw [decode_absorb_opcode, decodeAbsorb_eq_wait_iff]
      refine ⟨fun h => .inr ⟨q, rfl, h⟩, fun h => ?_⟩
      obtain h | ⟨q', hq, h⟩ := h
      · cases h
      · exact (List.cons.inj hq).2 ▸ h
    · refine iff_of_false (decode_ne_wait q h2) fun h => ?_
      obtain h | ⟨q', hq, -⟩ := h
      · cases h
      · exact h2 (List.cons.inj hq).1

/-- Settles O1: the worked encodings, by evaluating the decoder and the encoder on the fixed words. -/
theorem workedEncodingsDecode : Obligations.WorkedEncodingsDecode := by
  unfold Obligations.WorkedEncodingsDecode
  decide +kernel

end Sys2Proof
end

section
/-! PROOFS. One step and one command: what a step takes from CMD (O7), what a refused command leaves (O8), what every command
answers (O37), and that it leaves CMD alone. -/

namespace Sys2Proof.Machine

/-- Settles O7: consuming is writing CMD. -/
theorem stepRunsDecodedCommand : Obligations.StepRunsDecodedCommand := fun _ =>
  ⟨fun _ _ h => step_of_command h, step_of_wait⟩

theorem exec_of_faulted {i : Instr} {s : State} (hi : i.isIllegal = false) (hp : s.phase = .faulted) :
    exec i s = .next (respond 0x04 [] s) := by
  obtain ⟨h, -⟩ | ⟨-, -, h⟩ | ⟨-, -, h, -⟩ | ⟨-, h, -⟩ | ⟨p, -, h, -⟩ | ⟨-, h, -⟩ | ⟨-, h, -⟩ := exec_cases i s
  case inr.inl => exact h
  all_goals simp_all

theorem exec_of_finalized {i : Instr} {s : State} (hi : i.isIllegal = false) (hne : i ≠ .init)
    (hp : s.phase = .finalized) : exec i s = .next (respond 0x02 [] s) := by
  obtain ⟨h, -⟩ | ⟨-, h, -⟩ | ⟨-, -, -, h⟩ | ⟨h, -⟩ | ⟨p, -, h, -⟩ | ⟨-, h, -⟩ | ⟨-, h, -⟩ := exec_cases i s
  case inr.inr.inl => exact h
  all_goals simp_all

/-- Settles O8: the whole encoding is taken (R79), and then PHASE alone refuses the command. -/
theorem refusedCommandConsumedWhole : Obligations.RefusedCommandConsumedWhole := by
  intro s i rest hwf hi hcmd hphase
  have hdecode : decode s.cmd = .command i rest := hcmd ▸ decodeOfEncodedCommand i rest hwf
  rw [step_of_command hdecode]
  obtain hp | ⟨hp, hne⟩ := hphase
  · rw [exec_of_faulted hi ((consume_phase rest s).trans hp), if_pos hp]
    exact ⟨_, _, rfl⟩
  · rw [exec_of_finalized hi hne ((consume_phase rest s).trans hp), if_neg (by simp [hp])]
    exact ⟨_, _, rfl⟩

/-- Settles O37: the seven ways a command can end differ in their status, and only a completed FINAL answers more. -/
theorem oneResponsePerCommand : Obligations.OneResponsePerCommand := by
  intro i s t h
  obtain ⟨hi, h'⟩ | ⟨hi, hp, h'⟩ | ⟨hi, hne, hp, h'⟩ | ⟨rfl, hp, h'⟩ | ⟨p, rfl, hp, h'⟩ | ⟨rfl, hp, -, h'⟩ |
    ⟨rfl, hp, -, h'⟩ := exec_cases i s
  all_goals
    rw [h'] at h
    simp only [Host.Outcome.next.injEq] at h
    subst h
  · refine ⟨0x01, [], respond_rsp .., ?_⟩
    have hfinal : i ≠ .final := fun h => by simp [h, Instr.isIllegal] at hi
    simp [hi, hfinal]
  · refine ⟨0x04, [], respond_rsp .., ?_⟩
    simp [hi, hp]
  · refine ⟨0x02, [], respond_rsp .., ?_⟩
    simp [hi, hne, hp]
  · refine ⟨0x00, [], by simp, ?_⟩
    simp [hp, Instr.isIllegal]
  · refine ⟨0x00, [], by simp, ?_⟩
    simp [hp, Instr.isIllegal]
  · refine ⟨0x03, [], by simp, ?_⟩
    simp [hp, Instr.isIllegal]
  · refine ⟨0x00, digestBytes (padAndAbsorb s).hash, by simp, ?_⟩
    simp [hp, Instr.isIllegal]

/-- A command does not touch CMD (R35): its bytes were taken before. -/
theorem exec_cmd {i : Instr} {s t : State} (h : exec i s = .next t) : t.cmd = s.cmd := by
  obtain ⟨-, h'⟩ | ⟨-, -, h'⟩ | ⟨-, -, -, h'⟩ | ⟨-, -, h'⟩ | ⟨p, -, -, h'⟩ | ⟨-, -, -, h'⟩ | ⟨-, -, -, h'⟩ :=
    exec_cases i s
  all_goals
    rw [h'] at h
    simp only [Host.Outcome.next.injEq] at h
    subst h
    simp

end Sys2Proof.Machine
end

section
/-! SUPPORT. The blocks and the tail of two sequences in a row; so absorbing twice is absorbing once (R147), and steps 1 to 4 of
finalize absorb the padding in its closed form (R161, R162), by which every command keeps the invariant of R31. -/

namespace Sys2Proof.Machine

/-- A sequence is its first block and a shorter sequence, or has no complete block. -/
theorem blocks_induction {P : List Byte → Prop} (short : ∀ a, a.length < 64 → P a)
    (block : ∀ a, 64 ≤ a.length → P (a.drop 64) → P a) (a : List Byte) : P a := by
  by_cases h : 64 ≤ a.length
  · exact block a h (blocks_induction short block (a.drop 64))
  · exact short a (by omega)
termination_by a.length
decreasing_by simp; omega

theorem blockOf_append (a b : List Byte) (h : 64 ≤ a.length) (h' : 64 ≤ (a ++ b).length) :
    blockOf (a ++ b) h' = blockOf a h :=
  block_ext (by simp [List.take_append_of_le_length h])

/-- The blocks of a, then those that the tail of a makes with b. -/
theorem blocksOf_append (a b : List Byte) : blocksOf (a ++ b) = blocksOf a ++ blocksOf (tailOf a ++ b) := by
  induction a using blocks_induction with
  | short a h => rw [blocksOf_short a h, tailOf_short a h, List.nil_append]
  | block a h ih =>
    have h' : 64 ≤ (a ++ b).length := by simp; omega
    rw [blocksOf_cons _ h', blocksOf_cons a h, blockOf_append a b h h', tailOf_drop a h,
      List.drop_append_of_le_length h, ih, List.cons_append]

theorem tailOf_append (a b : List Byte) : tailOf (a ++ b) = tailOf (tailOf a ++ b) := by
  induction a using blocks_induction with
  | short a h => rw [tailOf_short a h]
  | block a h ih =>
    have h' : 64 ≤ (a ++ b).length := by simp; omega
    rw [tailOf_drop _ h', tailOf_drop a h, List.drop_append_of_le_length h, ih]

theorem compressBlocks_append (h : Hash) (bs cs : List Block) :
    compressBlocks h (bs ++ cs) = compressBlocks (compressBlocks h bs) cs := List.foldl_append

theorem lengthAdd_toNat (t : Word64) (n : Nat) : (lengthAdd t n).toNat = (t.toNat + n) % 2 ^ 64 := by
  simp [lengthAdd, BitVec.toNat_add]

theorem lengthAdd_lengthAdd (t : Word64) (n m : Nat) : lengthAdd (lengthAdd t n) m = lengthAdd t (n + m) := by
  apply BitVec.eq_of_toNat_eq
  simp only [lengthAdd_toNat]
  omega

/-- Two payloads in a row leave the architectural state that their concatenation leaves (R147). -/
theorem Persistent.absorb_absorb (v : Persistent) (p q : List Byte) : (v.absorb p).absorb q = v.absorb (p ++ q) := by
  have hlen : Fin.ofNat 65 (((Fin.ofNat 65 ((v.bufLen.val + p.length) % 64)).val + q.length) % 64) =
      Fin.ofNat 65 ((v.bufLen.val + (p ++ q).length) % 64) := by
    apply Fin.ext
    simp only [Fin.ofNat, List.length_append]
    omega
  simp only [Persistent.absorb, hlen, lengthAdd_lengthAdd, ← List.append_assoc, blocksOf_append (v.valid ++ p) q,
    compressBlocks_append, ← tailOf_append, List.length_append]

/-- The zeros of step 3, counted from TOTAL_LENGTH after step 2, are those of the closed form (R162). -/
theorem zeroCount_lengthAdd_one (t : Word64) : zeroCount (lengthAdd t 1) = (55 + 64 - t.toNat % 64) % 64 := by
  rw [zeroCount, lengthAdd_toNat]
  omega

/-- Steps 1 to 4 of finalize absorb the padding in its closed form (R161, R162). -/
theorem Persistent.padAndAbsorb_eq_absorb (v : Persistent) :
    v.padAndAbsorb = v.absorb (padding v.totalLength.toNat (bitLength v.totalLength)) := by
  have htotal : (v.absorb [padByte]).totalLength = lengthAdd v.totalLength 1 := rfl
  simp only [Persistent.padAndAbsorb, htotal, Persistent.absorb_absorb, zeroCount_lengthAdd_one, padding,
    List.cons_append, List.nil_append]

/-- The same of the machine's state: FINAL's padding is one absorb of the closed form. -/
theorem padAndAbsorb_eq_absorb (s : State) :
    (padAndAbsorb s).persistent = (absorb (padding s.totalLength.toNat (bitLength s.totalLength)) s).persistent := by
  rw [padAndAbsorb_persistent, Persistent.padAndAbsorb_eq_absorb, absorb_persistent]
  rfl

/-- The padding fills the last block (R161, R169). -/
theorem padding_fills_block (l : Nat) (v : Word64) : (l + (padding l v).length) % 64 = 0 := by
  rw [padding_length]
  omega

/-- From a state that counts its buffer the padding leaves the buffer empty and whole blocks counted (R31, R169). -/
theorem padAndAbsorb_drains {s : State} (h : s.bufLen.val = s.totalLength.toNat % 64) :
    (padAndAbsorb s).bufLen = 0 ∧ (padAndAbsorb s).totalLength.toNat % 64 = 0 := by
  obtain ⟨-, -, hlen, htotal, -⟩ := persistent_fields (padAndAbsorb_eq_absorb s)
  have hfill := padding_fills_block s.totalLength.toNat (bitLength s.totalLength)
  refine ⟨Fin.ext ?_, ?_⟩
  · rw [hlen, absorb_bufLen, h]
    simpa using hfill
  · rw [htotal, absorb_totalLength, lengthAdd_toNat]
    omega

/-- Every command keeps the invariant of R31 and does not enter FAULTED from a state that meets it (R31, R169). -/
theorem exec_keeps_invariant {i : Instr} {s t : State} (hs : BufferInv s) (h : exec i s = .next t) :
    BufferInv t ∧ (s.phase ≠ .faulted → t.phase ≠ .faulted) := by
  obtain ⟨-, h'⟩ | ⟨-, -, h'⟩ | ⟨-, -, -, h'⟩ | ⟨-, -, h'⟩ | ⟨p, -, hp, h'⟩ | ⟨-, hp, h0, h'⟩ | ⟨-, hp, h0, h'⟩ :=
    exec_cases i s
  all_goals
    rw [h'] at h
    simp only [Host.Outcome.next.injEq] at h
    subst h
  · exact ⟨hs, id⟩
  · exact ⟨hs, id⟩
  · exact ⟨hs, id⟩
  · exact ⟨(safe_of_fresh rfl rfl rfl).1, by simp⟩
  · obtain ⟨-, hlen⟩ := hs.1 hp
    simp only [BufferInv, respond_phase, respond_bufLen, respond_totalLength, absorb_phase, absorb_totalLength,
      absorb_bufLen, lengthAdd_toNat, hp]
    exact ⟨⟨fun _ => by omega, nofun⟩, id⟩
  · exact absurd (padAndAbsorb_drains (hs.1 hp).2).1 h0
  · obtain ⟨-, htotal⟩ := padAndAbsorb_drains (hs.1 hp).2
    simp [BufferInv, h0, htotal]

end Sys2Proof.Machine
end

section
/-! SUPPORT. Bytes that the host appends to CMD stay there while a command is executed: every operation commutes with send
(R35, R79). -/

namespace Sys2Proof.Machine

section
variable (b : List Byte) (s : State)

@[simp] theorem addLength_send (n : Nat) : addLength n (send b s) = send b (addLength n s) := rfl
@[simp] theorem appendBuf_send (bs : List Byte) : appendBuf bs (send b s) = send b (appendBuf bs s) := rfl
@[simp] theorem clearBuf_send : clearBuf (send b s) = send b (clearBuf s) := rfl
@[simp] theorem setPhase_send (p : Phase) : setPhase p (send b s) = send b (setPhase p s) := rfl
@[simp] theorem latchBitLen_send : latchBitLen (send b s) = send b (latchBitLen s) := rfl
@[simp] theorem freshDigest_send : freshDigest (send b s) = send b (freshDigest s) := rfl
@[simp] theorem respond_send (c : Byte) (bs : List Byte) : respond c bs (send b s) = send b (respond c bs s) := rfl
@[simp] theorem raise_send (e : Exception) : raise e (send b s) = send b (raise e s) := rfl
@[simp] theorem seqInitWork_send : seqInitWork (send b s) = send b (seqInitWork s) := rfl
@[simp] theorem seqFeedback_send : seqFeedback (send b s) = send b (seqFeedback s) := rfl

@[simp] theorem seqSchedule_send (blk : Block) : seqSchedule blk (send b s) = send b (seqSchedule blk s) := by
  simp only [seqSchedule, send]

@[simp] theorem seqRound_send : seqRound (send b s) = send b (seqRound s) := by
  by_cases hi : s.eph.i.val < 64
  · rw [seqRound_lt s hi, seqRound_lt (send b s) hi]
    rfl
  · simp [seqRound, hi]

@[simp] theorem seqRounds_send (n : Nat) : seqRounds n (send b s) = send b (seqRounds n s) := by
  induction n with
  | zero => rfl
  | succ n ih => simp only [seqRounds, ih, seqRound_send]

@[simp] theorem compressBlock_send (blk : Block) : compressBlock blk (send b s) = send b (compressBlock blk s) := by
  rw [compressBlock, seqSchedule_send, seqInitWork_send, seqRounds_send, seqFeedback_send, compressBlock]

@[simp] theorem drainFull_send : drainFull (send b s) = send b (drainFull s) := by
  rw [drainFull, drainFull, send_bufLen, send_buf, compressBlock_send, clearBuf_send]
  exact (apply_ite (send b) ..).symm

@[simp] theorem fillPartial_send (p : List Byte) :
    fillPartial p (send b s) = (send b (fillPartial p s).1, (fillPartial p s).2) := by
  by_cases h : s.bufLen = 0
  · rw [fillPartial, fillPartial, send_bufLen, if_pos h, if_pos h]
  · rw [fillPartial, fillPartial, send_bufLen, if_neg h, if_neg h]
    simp only [appendBuf_send, drainFull_send]

@[simp] theorem absorbDirect_send (n : Nat) (p : List Byte) :
    absorbDirect n p (send b s) = (send b (absorbDirect n p s).1, (absorbDirect n p s).2) := by
  induction n generalizing p s with
  | zero => rfl
  | succ n ih =>
    by_cases h : 64 ≤ p.length
    · rw [absorbDirect, absorbDirect, dif_pos h, dif_pos h, compressBlock_send, ih]
    · rw [absorbDirect, absorbDirect, dif_neg h, dif_neg h]

@[simp] theorem storeTail_send (r : List Byte) : storeTail r (send b s) = send b (storeTail r s) := by
  by_cases h : r = []
  · rw [storeTail, storeTail, if_pos h, if_pos h]
  · rw [storeTail, storeTail, if_neg h, if_neg h, clearBuf_send, appendBuf_send]

@[simp] theorem absorb_send (p : List Byte) : absorb p (send b s) = send b (absorb p s) := by
  rw [absorb, addLength_send, fillPartial_send, absorbDirect_send, storeTail_send, absorb]

@[simp] theorem padAndAbsorb_send : padAndAbsorb (send b s) = send b (padAndAbsorb s) := by
  rw [padAndAbsorb, latchBitLen_send, absorb_send, absorbZeros, absorb_send, send_totalLength, absorbBitLen, absorb_send,
    send_eph, padAndAbsorb, absorbBitLen, absorbZeros]

end

theorem exec_init (s : State) : exec .init s = execInit s := rfl

theorem exec_absorb (p : List Byte) (s : State) : exec (.absorb p) s = execAbsorb p s := rfl

theorem exec_final (s : State) : exec .final s = execFinal s := rfl

theorem execInit_send {s t : State} (b : List Byte) (h : execInit s = .next t) :
    execInit (send b s) = .next (send b t) := by
  simp only [execInit, send_phase] at h ⊢
  cases hr : initRefusal s.phase with
  | some e =>
    simp only [hr, Host.Outcome.next.injEq] at h ⊢
    rw [← h, raise_send]
  | none =>
    simp only [hr, Host.Outcome.next.injEq] at h ⊢
    rw [← h, freshDigest_send, respond_send]

theorem execAbsorb_send {p : List Byte} {s t : State} (b : List Byte) (h : execAbsorb p s = .next t) :
    execAbsorb p (send b s) = .next (send b t) := by
  simp only [execAbsorb, send_phase] at h ⊢
  cases hr : absorbRefusal s.phase with
  | some e =>
    simp only [hr, Host.Outcome.next.injEq] at h ⊢
    rw [← h, raise_send]
  | none =>
    simp only [hr, Host.Outcome.next.injEq] at h ⊢
    rw [← h, absorb_send, respond_send]

theorem execFinal_send {s t : State} (b : List Byte) (h : execFinal s = .next t) :
    execFinal (send b s) = .next (send b t) := by
  simp only [execFinal, send_phase, padAndAbsorb_send, send_bufLen, send_hash] at h ⊢
  cases hr : finalRefusal s.phase with
  | some e =>
    simp only [hr, Host.Outcome.next.injEq] at h ⊢
    rw [← h, raise_send]
  | none =>
    simp only [hr] at h ⊢
    cases hf : paddingFault (padAndAbsorb s).bufLen with
    | some e =>
      simp only [hf, Host.Outcome.next.injEq] at h ⊢
      rw [← h, raise_send]
    | none =>
      simp only [hf, Host.Outcome.next.injEq] at h ⊢
      rw [← h, setPhase_send, respond_send]

/-- A command is executed in the same way whatever bytes stand on CMD behind it (R35, R79). -/
theorem exec_send {i : Instr} {s t : State} (h : exec i s = .next t) (b : List Byte) :
    exec i (send b s) = .next (send b t) := by
  cases i with
  | init =>
    rw [exec_init] at h ⊢
    exact execInit_send b h
  | absorb p =>
    rw [exec_absorb] at h ⊢
    exact execAbsorb_send b h
  | final =>
    rw [exec_final] at h ⊢
    exact execFinal_send b h
  | _ =>
    have hraise : raise .illegalCommand s = t := Host.Outcome.next.inj h
    rw [← hraise]
    rfl

end Sys2Proof.Machine
end

section
/-! PROOFS. executeReady takes one command after another until the decoder waits; from its two equations O49 and O51 are settled,
and with them that encoded commands, sent to a waiting engine, are executed as they are by execAll. -/

namespace Sys2Proof.Machine

/-- A decoded command takes at least its opcode byte (R70, R71). -/
theorem decode_rest_length {q rest : List Byte} {i : Instr} (h : decode q = .command i rest) : rest.length < q.length := by
  obtain ⟨-, rfl⟩ := encodeOfDecodedCommand q i rest h
  obtain ⟨bs, hbs⟩ := List.head?_eq_some_iff.1 (opcodeRow_statement i).1
  simp [hbs]

/-- So a command leaves CMD shorter. -/
theorem exec_shortens_cmd {s t : State} {i : Instr} {rest : List Byte} (hd : decode s.cmd = .command i rest)
    (ht : exec i (consume rest s) = .next t) : t.cmd.length < s.cmd.length := by
  rw [exec_cmd ht, consume_cmd]
  exact decode_rest_length hd

theorem stepN_of_wait {s : State} (h : decode s.cmd = .wait) (n : Nat) : stepN n s = .next s := by
  induction n with
  | zero => rfl
  | succ n ih => simpa only [stepN, step_of_wait h] using ih

theorem stepN_succ {s t : State} (h : step s = .next t) (n : Nat) : stepN (n + 1) s = stepN n t := by
  simp only [stepN, h]

/-- The number of steps does not matter once it allows every command on CMD. -/
theorem stepN_bound {s : State} (n m : Nat) (hn : s.cmd.length ≤ n) (hm : s.cmd.length ≤ m) : stepN n s = stepN m s := by
  induction n generalizing m s with
  | zero =>
    have hwait : decode s.cmd = .wait := by rw [List.length_eq_zero_iff.1 (by omega : s.cmd.length = 0)]; rfl
    rw [stepN_of_wait hwait, stepN_of_wait hwait]
  | succ n ih =>
    cases hd : decode s.cmd with
    | wait => rw [stepN_of_wait hd, stepN_of_wait hd]
    | command i rest =>
      obtain ⟨t, ht⟩ := everyCommandAnswersNextState.1 i (consume rest s)
      have hshort := exec_shortens_cmd hd ht
      obtain ⟨m, rfl⟩ : ∃ k, m = k + 1 := ⟨m - 1, by omega⟩
      have hstep := (step_of_command hd).trans ht
      rw [stepN_succ hstep, stepN_succ hstep, ih m (by omega) (by omega)]

theorem executeReady_of_wait {s : State} (h : Waiting s) : executeReady s = .next s := stepN_of_wait h _

theorem executeReady_of_command {s t : State} {i : Instr} {rest : List Byte} (hd : decode s.cmd = .command i rest)
    (ht : exec i (consume rest s) = .next t) : executeReady s = executeReady t := by
  have hshort := exec_shortens_cmd hd ht
  calc executeReady s = stepN (s.cmd.length + 1) s := stepN_bound _ _ (by omega) (by omega)
    _ = stepN s.cmd.length t := stepN_succ ((step_of_command hd).trans ht) _
    _ = executeReady t := stepN_bound _ _ (by omega) (by omega)

/-- Induction along executeReady: the engine waits, or executes a command and goes on. -/
theorem ready_induction {P : State → Prop} (wait : ∀ s, Waiting s → P s)
    (command : ∀ s t i rest, decode s.cmd = .command i rest → exec i (consume rest s) = .next t → P t → P s)
    (s : State) : P s := by
  cases hd : decode s.cmd with
  | wait => exact wait s hd
  | command i rest =>
    obtain ⟨t, ht⟩ := everyCommandAnswersNextState.1 i (consume rest s)
    exact command s t i rest hd ht (ready_induction wait command t)
termination_by s.cmd.length
decreasing_by exact exec_shortens_cmd hd ht

/-- Settles O49, along executeReady: each command keeps the invariant, and with it PHASE out of FAULTED. -/
theorem readyCommandsAllExecute : Obligations.ReadyCommandsAllExecute := by
  intro s
  induction s using ready_induction with
  | wait s hwait =>
    refine ⟨s, executeReady_of_wait hwait, hwait, fun hsafe => ?_⟩
    by_cases hcmd : s.cmd = []
    · exact .inl ⟨hcmd, hsafe.2⟩
    · exact .inr ⟨hwait, hcmd⟩
  | command s t i rest hd ht ih =>
    obtain ⟨u, hu, hwait, hend⟩ := ih
    refine ⟨u, (executeReady_of_command hd ht).trans hu, hwait, fun hsafe => hend ?_⟩
    obtain ⟨hinv, hphase⟩ := exec_keeps_invariant (s := consume rest s) hsafe.1 ht
    exact ⟨hinv, hphase hsafe.2⟩

/-- Settles O51, along executeReady: what is complete before b comes is executed in the same way after it has come. -/
theorem sendPiecesDoNotMatter : Obligations.SendPiecesDoNotMatter := by
  intro s a b
  have hsend : send b (send a s) = send (a ++ b) s := by simp [send]
  rw [← hsend]
  induction send a s using ready_induction with
  | wait x hwait => exact ⟨x, executeReady_of_wait hwait, rfl⟩
  | command x t i rest hd ht ih =>
    obtain ⟨u, hu, hsame⟩ := ih
    refine ⟨u, (executeReady_of_command hd ht).trans hu, hsame.trans ?_⟩
    have hd' : decode (send b x).cmd = .command i (rest ++ b) := laterBytesKeepTheCommand x.cmd b i rest hd
    exact (executeReady_of_command hd' (exec_send ht b)).symm

theorem execAll_cons {i : Instr} {s t : State} (h : exec i s = .next t) (is : List Instr) :
    execAll (i :: is) s = execAll is t := by
  simp only [execAll, h]

/-- The bytes of commands, sent to an engine with an empty CMD, execute as the commands do one after another (R59). -/
theorem executeReady_send_encoded (is : List Instr) (s : State) (hcmd : s.cmd = [])
    (hwf : ∀ i ∈ is, i.wellFormed = true) : executeReady (send (is.flatMap encode) s) = execAll is s := by
  induction is generalizing s with
  | nil =>
    have hsend : send [] s = s := by simp [send]
    rw [List.flatMap_nil, hsend]
    exact executeReady_of_wait (by rw [Waiting, hcmd]; rfl)
  | cons i is ih =>
    obtain ⟨t, ht⟩ := everyCommandAnswersNextState.1 i s
    have hd : decode (send ((i :: is).flatMap encode) s).cmd = .command i (is.flatMap encode) := by
      rw [send_cmd, hcmd, List.nil_append, List.flatMap_cons]
      exact decodeOfEncodedCommand i _ (hwf i List.mem_cons_self)
    have hconsume : consume (is.flatMap encode) (send ((i :: is).flatMap encode) s) = send (is.flatMap encode) s := by
      simp [consume, send, hcmd]
    rw [executeReady_of_command hd (hconsume ▸ exec_send ht _), execAll_cons ht,
      ih t ((exec_cmd ht).trans hcmd) fun j hj => hwf j (List.mem_cons_of_mem i hj)]

end Sys2Proof.Machine
end

section
/-! PROOFS. INIT, any chunks and FINAL answer the digest of the whole message (O52); a long ABSORB is such chunks (O54); and so the
bytes of HASH give it (O53). -/

namespace Sys2Proof.Machine

/-- Commands one after another on the architectural part of a state. -/
def Persistent.execAll (is : List Instr) (v : Persistent) : Persistent := is.foldl (fun v i => v.exec i) v

theorem execAll_next_persistent (is : List Instr) (s : State) :
    ∃ t, execAll is s = .next t ∧ t.persistent = s.persistent.execAll is := by
  induction is generalizing s with
  | nil => exact ⟨s, rfl, rfl⟩
  | cons i is ih =>
    obtain ⟨t, ht, hpt⟩ := exec_next_persistent i s
    obtain ⟨u, hu, hpu⟩ := ih t
    refine ⟨u, (execAll_cons ht is).trans hu, ?_⟩
    rw [hpu, hpt]
    rfl

theorem execAll_cmd {is : List Instr} {s t : State} (h : execAll is s = .next t) : t.cmd = s.cmd := by
  induction is generalizing s with
  | nil => rw [Host.Outcome.next.inj h]
  | cons i is ih =>
    obtain ⟨u, hu⟩ := everyCommandAnswersNextState.1 i s
    rw [execAll_cons hu] at h
    exact (ih h).trans (exec_cmd hu)

theorem Persistent.exec_init {v : Persistent} (h : v.phase ≠ .faulted) : v.exec .init = v.fresh.respond 0x00 [] := by
  simp [Persistent.exec, Instr.isIllegal, h]

theorem Persistent.exec_absorb {v : Persistent} (p : List Byte) (h : v.phase = .absorbing) :
    v.exec (.absorb p) = (v.absorb p).respond 0x00 [] := by
  simp [Persistent.exec, Instr.isIllegal, h]

theorem Persistent.exec_final {v : Persistent} (h : v.phase = .absorbing) : v.exec .final = v.padAndAbsorb.finish := by
  simp [Persistent.exec, Instr.isIllegal, h]

/-- n responses 0x00, one after another. -/
def Persistent.answerOk (n : Nat) (v : Persistent) : Persistent := { v with rsp := v.rsp ++ List.replicate n 0x00 }

theorem Persistent.respond_answerOk (n : Nat) (v : Persistent) :
    (v.respond 0x00 []).answerOk n = v.answerOk (n + 1) := by
  simp [Persistent.respond, Persistent.answerOk, List.replicate_succ]

/-- ABSORBs after m on a fresh Digest State: their payloads are absorbed behind m, and each answers 0x00 (R144, R147). -/
theorem Persistent.execAll_absorbs (chunks : List (List Byte)) (v : Persistent) (m : List Byte) :
    (v.fresh.absorb m).execAll (chunks.map Instr.absorb) =
      ((v.answerOk chunks.length).fresh.absorb (m ++ chunks.flatten)) := by
  induction chunks generalizing v m with
  | nil => simp [Persistent.execAll, Persistent.answerOk]
  | cons c chunks ih =>
    have hstep : (v.fresh.absorb m).exec (.absorb c) = (v.respond 0x00 []).fresh.absorb (m ++ c) := by
      rw [Persistent.exec_absorb c rfl, Persistent.absorb_absorb]
      rfl
    calc (v.fresh.absorb m).execAll ((c :: chunks).map Instr.absorb)
        = ((v.fresh.absorb m).exec (.absorb c)).execAll (chunks.map Instr.absorb) := rfl
      _ = _ := by
        rw [hstep, ih, Persistent.respond_answerOk, List.append_assoc, List.flatten_cons, List.length_cons]

/-- A fresh Digest State has nothing in its buffer to be absorbed. -/
theorem Persistent.fresh_absorb_nil (v : Persistent) : v.fresh.absorb [] = v.fresh := by
  simp [Persistent.absorb, Persistent.fresh, blocksOf_short, tailOf_short, lengthAdd]

theorem padding_mod (l : Nat) (v : Word64) : padding (l % 2 ^ 64) v = padding l v := by
  rw [padding, padding, Nat.mod_mod_of_dvd l (by decide)]

/-- TOTAL_LENGTH after a message of n bytes, modulo 2^64 (R101, D8). -/
theorem lengthAdd_zero_toNat (n : Nat) : (lengthAdd 0 n).toNat = n % 2 ^ 64 := by
  simp [lengthAdd_toNat]

/-- The bit length latched after a message of n bytes, modulo 2^64 (R101, D8). -/
theorem bitLength_lengthAdd_zero (n : Nat) : bitLength (lengthAdd 0 n) = BitVec.ofNat 64 (8 * n) := by
  apply BitVec.eq_of_toNat_eq
  rw [bitLength, BitVec.toNat_shiftLeft, lengthAdd_zero_toNat, BitVec.toNat_ofNat, Nat.shiftLeft_eq]
  omega

/-- Steps 1 to 4 of finalize after a message on a fresh Digest State absorb the padded message (R116, R162). -/
theorem Persistent.padAndAbsorb_of_message (v : Persistent) (m : List Byte) :
    (v.fresh.absorb m).padAndAbsorb = v.fresh.absorb (m ++ padding m.length (BitVec.ofNat 64 (8 * m.length))) := by
  have htotal : (v.fresh.absorb m).totalLength = lengthAdd 0 m.length := rfl
  rw [Persistent.padAndAbsorb_eq_absorb, Persistent.absorb_absorb, htotal, bitLength_lengthAdd_zero,
    lengthAdd_zero_toNat, padding_mod]

/-- FINAL after a message on a fresh Digest State: the padding fills the last block, and H is the one-shot fold (R116, R165). -/
theorem Persistent.exec_final_of_message (v : Persistent) (m : List Byte) :
    ((v.fresh.absorb m).exec .final).phase = .finalized ∧
      ((v.fresh.absorb m).exec .final).rsp = v.rsp ++ 0x00 :: referenceDigest m := by
  have hempty : (v.fresh.absorb m).padAndAbsorb.bufLen = 0 := by
    have hfill := padding_fills_block m.length (BitVec.ofNat 64 (8 * m.length))
    rw [Persistent.padAndAbsorb_of_message]
    simp [Persistent.absorb, Persistent.fresh, hfill]
  have hhash : digestBytes (v.fresh.absorb m).padAndAbsorb.hash = referenceDigest m := by
    rw [Persistent.padAndAbsorb_of_message]
    rfl
  have hrsp : (v.fresh.absorb m).padAndAbsorb.rsp = v.rsp := by
    rw [Persistent.padAndAbsorb_of_message]
    rfl
  rw [Persistent.exec_final rfl, Persistent.finish, if_pos hempty, hhash]
  simp only [Persistent.respond, hrsp, and_self]

/-- Settles O52: INIT makes the Digest State fresh, the chunks are one absorb of their concatenation, and FINAL pads it. -/
theorem chunkedHashIsReferenceDigest : Obligations.ChunkedHashIsReferenceDigest := by
  intro s chunks hphase
  obtain ⟨t, ht, hpt⟩ := execAll_next_persistent (.init :: (chunks.map Instr.absorb ++ [.final])) s
  have hrun : t.persistent =
      ((s.persistent.answerOk (chunks.length + 1)).fresh.absorb chunks.flatten).exec .final := by
    calc t.persistent
        = ((s.persistent.exec .init).execAll (chunks.map Instr.absorb)).exec .final := by
          simp [hpt, Persistent.execAll]
      _ = (((s.persistent.respond 0x00 []).fresh.absorb []).execAll (chunks.map Instr.absorb)).exec .final := by
          rw [Persistent.exec_init hphase, Persistent.fresh_absorb_nil]
          rfl
      _ = _ := by
          rw [Persistent.execAll_absorbs, Persistent.respond_answerOk, List.nil_append]
  obtain ⟨hfinal, hrsp⟩ := Persistent.exec_final_of_message (s.persistent.answerOk (chunks.length + 1)) chunks.flatten
  rw [← hrun] at hfinal hrsp
  exact ⟨t, ht, hfinal, hrsp.trans (List.append_assoc ..)⟩

theorem absorbCommands_short {p : List Byte} (n : Nat) (h : p.length ≤ maxPayload) :
    absorbCommands n p = [.absorb p] := by
  cases n with
  | zero => rfl
  | succ n => rw [absorbCommands, if_pos h]

theorem maxPayload_pos : 0 < maxPayload := by decide

/-- The expansion of a long ABSORB, for every bound that allows all its commands (R83). -/
theorem absorbCommands_chunks (n : Nat) (p : List Byte) (hn : p.length ≤ n) :
    ∃ chunks : List (List Byte), absorbCommands n p = chunks.map Instr.absorb ∧ chunks.flatten = p ∧
      ∀ c ∈ chunks, c.length ≤ maxPayload := by
  have hpos := maxPayload_pos
  by_cases hshort : p.length ≤ maxPayload
  · exact ⟨[p], absorbCommands_short n hshort, by simp, by simpa using hshort⟩
  · cases n with
    | zero => omega
    | succ n =>
      obtain ⟨chunks, hmap, hflat, hlen⟩ := absorbCommands_chunks n (p.drop maxPayload) (by simp; omega)
      refine ⟨p.take maxPayload :: chunks, ?_, ?_, ?_⟩
      · rw [absorbCommands, if_neg hshort, hmap, List.map_cons]
      · rw [List.flatten_cons, hflat, List.take_append_drop]
      · simpa using hlen

/-- Settles O54: the bound of absorbCommands is the number of bytes, and each command but the last takes some. -/
theorem longAbsorbSplits : Obligations.LongAbsorbSplits := fun p => absorbCommands_chunks p.length p (Nat.le_refl _)

/-- Settles O53: the bytes of HASH execute as its commands do, and these are INIT, chunks and FINAL. -/
theorem hashBytesGiveReferenceDigest : Obligations.HashBytesGiveReferenceDigest := by
  intro s m hphase hcmd
  obtain ⟨chunks, hmap, hflat, hlen⟩ := longAbsorbSplits m
  have hcommands : hashCommands m = .init :: (chunks.map Instr.absorb ++ [.final]) := by rw [hashCommands, hmap]
  have hwf : ∀ i ∈ hashCommands m, i.wellFormed = true := by
    intro i hi
    simp only [hcommands, List.mem_cons, List.mem_append, List.mem_map, List.not_mem_nil, or_false] at hi
    obtain rfl | ⟨c, hc, rfl⟩ | rfl := hi
    · rfl
    · have hc := hlen c hc
      simp only [Instr.wellFormed, decide_eq_true_eq]
      omega
    · rfl
  obtain ⟨t, ht, hfinal, hrsp⟩ := chunkedHashIsReferenceDigest s chunks hphase
  refine ⟨t, ?_, (execAll_cmd ht).trans hcmd, hfinal, ?_, fun hshort => ?_⟩
  · rw [executeReady_send_encoded _ s hcmd hwf, hcommands, ht]
  · rw [hrsp, hflat, hcommands]
    simp
  · have hpayload : m.length ≤ maxPayload := Nat.le_sub_one_of_lt hshort
    simp [hashCommands, absorbCommands_short _ hpayload]

end Sys2Proof.Machine
end

section
/-! PROOFS. The word operations bit by bit and as arithmetic (R90 to R101): one lemma per operation says what it does, and
O9 to O14 are settled from these. -/

namespace Sys2Proof.Machine

@[simp] theorem add32_toNat (x y : Word) : (add32 x y).toNat = (x.toNat + y.toNat) % 2 ^ 32 := BitVec.toNat_add x y

theorem add32_comm (x y : Word) : add32 x y = add32 y x := BitVec.add_comm x y

theorem add32_assoc (x y z : Word) : add32 (add32 x y) z = add32 x (add32 y z) := BitVec.add_assoc x y z

/-- The reductions of the inner sums change nothing: the outermost one is enough (R90). -/
theorem add32_five_toNat (v w x y z : Word) :
    (add32 (add32 (add32 (add32 v w) x) y) z).toNat =
      (v.toNat + w.toNat + x.toNat + y.toNat + z.toNat) % 2 ^ 32 := by
  simp only [add32_toNat, Nat.mod_add_mod]

@[simp] theorem shr_toNat (x : Word) (n : Nat) : (shr x n).toNat = x.toNat / 2 ^ n := by
  rw [shr, BitVec.toNat_ushiftRight, Nat.shiftRight_eq_div_pow]

/-- Settles O9, from the values of add32 and shr. -/
theorem sumsWrapAndShiftsDivide : Obligations.SumsWrapAndShiftsDivide :=
  ⟨fun x y => ⟨add32_toNat x y, add32_comm x y⟩, add32_assoc, add32_five_toNat, shr_toNat⟩

/-- Below position 32 - n % 32 the right shift supplies the bit, from there on the left shift does; the other shift has a
0 there (R91). -/
theorem rotr_getLsbD (x : Word) (n j : Nat) (hj : j < 32) : (rotr x n).getLsbD j = x.getLsbD ((j + n) % 32) := by
  rw [rotr, BitVec.getLsbD_or, BitVec.getLsbD_ushiftRight, BitVec.getLsbD_shiftLeft]
  by_cases hwrap : j + n % 32 < 32
  · have hleft : j < 32 - n % 32 := by omega
    have hbit : (j + n) % 32 = n % 32 + j := by omega
    simp [hleft, hbit]
  · have hright : x.getLsbD (n % 32 + j) = false := BitVec.getLsbD_of_ge x _ (by omega)
    have hleft : ¬ j < 32 - n % 32 := by omega
    have hbit : (j + n) % 32 = j - (32 - n % 32) := by omega
    simp [hright, hleft, hbit, hj]

/-- Settles O10, by the position where the rotation wraps. -/
theorem rotationMovesEachBit : Obligations.RotationMovesEachBit := rotr_getLsbD

/-- A word has no bit 1 past bit 31, so the bound on the position adds nothing. -/
theorem decide_lt_and_getLsbD (x : Word) (j : Nat) : (decide (j < 32) && x.getLsbD j) = x.getLsbD j := by
  simpa using BitVec.lt_of_getLsbD (x := x)

theorem ch_getLsbD (e f g : Word) (j : Nat) :
    (ch e f g).getLsbD j = if e.getLsbD j then f.getLsbD j else g.getLsbD j := by
  rw [ch, BitVec.getLsbD_xor, BitVec.getLsbD_and, BitVec.getLsbD_and, BitVec.getLsbD_not]
  cases he : e.getLsbD j with
  | true => simp
  | false => simp [decide_lt_and_getLsbD]

/-- R95: the exclusive or of the three pairwise conjunctions is the majority, by the eight cases of the three bits. -/
theorem xor_and_pairs_eq_majority (a b c : Bool) :
    ((a && b) ^^ (a && c) ^^ (b && c)) = decide (2 ≤ a.toNat + b.toNat + c.toNat) := by
  revert a b c
  decide

theorem maj_getLsbD (a b c : Word) (j : Nat) :
    (maj a b c).getLsbD j = decide (2 ≤ (a.getLsbD j).toNat + (b.getLsbD j).toNat + (c.getLsbD j).toNat) := by
  simp only [maj, BitVec.getLsbD_xor, BitVec.getLsbD_and, xor_and_pairs_eq_majority]

/-- Settles O11, one bit position at a time. -/
theorem chooseAndMajorityBits : Obligations.ChooseAndMajorityBits := ⟨ch_getLsbD, maj_getLsbD⟩

theorem shr_getLsbD (x : Word) (n j : Nat) : (shr x n).getLsbD j = (decide (j + n < 32) && x.getLsbD (j + n)) := by
  rw [shr, BitVec.getLsbD_ushiftRight, Nat.add_comm n j, decide_lt_and_getLsbD]

/-- Three rotations, as in S0 and S1 (R96, R97). -/
theorem xor_rotr_rotr_rotr_getLsbD (x : Word) (k m n j : Nat) (hj : j < 32) :
    (rotr x k ^^^ rotr x m ^^^ rotr x n).getLsbD j =
      ((x.getLsbD ((j + k) % 32) ^^ x.getLsbD ((j + m) % 32)) ^^ x.getLsbD ((j + n) % 32)) := by
  rw [BitVec.getLsbD_xor, BitVec.getLsbD_xor, rotr_getLsbD x k j hj, rotr_getLsbD x m j hj, rotr_getLsbD x n j hj]

/-- Two rotations and a shift, as in s0 and s1 (R98, R99). -/
theorem xor_rotr_rotr_shr_getLsbD (x : Word) (k m n j : Nat) (hj : j < 32) :
    (rotr x k ^^^ rotr x m ^^^ shr x n).getLsbD j =
      ((x.getLsbD ((j + k) % 32) ^^ x.getLsbD ((j + m) % 32)) ^^ (decide (j + n < 32) && x.getLsbD (j + n))) := by
  rw [BitVec.getLsbD_xor, BitVec.getLsbD_xor, rotr_getLsbD x k j hj, rotr_getLsbD x m j hj, shr_getLsbD]

/-- Settles O12: each function is one of the two forms, with its own amounts. -/
theorem sigmaFunctionBits : Obligations.SigmaFunctionBits := fun x j hj =>
  ⟨xor_rotr_rotr_rotr_getLsbD x 2 13 22 j hj, xor_rotr_rotr_rotr_getLsbD x 6 11 25 j hj,
    xor_rotr_rotr_shr_getLsbD x 7 18 3 j hj, xor_rotr_rotr_shr_getLsbD x 17 19 10 j hj⟩

/-- The eight bytes of a 64-bit value, read big-endian, are the value (R52, R100). -/
theorem bytes64_bigEndian (v : Word64) : (bytes64 v).foldl (fun n b => n * 256 + b.toNat) 0 = v.toNat := by
  have hv := v.isLt
  simp only [bytes64, List.foldl_cons, List.foldl_nil, BitVec.extractLsb'_toNat, Nat.shiftRight_eq_div_pow]
  omega

/-- Settles O13, from the value of be32 and the two directions of its inverse. -/
theorem byteWordConversions : Obligations.ByteWordConversions :=
  ⟨fun b0 b1 b2 b3 => ⟨be32_toNat b0 b1 b2 b3, bytes32_be32 b0 b1 b2 b3⟩,
    fun w => ⟨_, _, _, _, rfl, be32_bytes32 w⟩,
    fun v => ⟨bytes64_length v, bytes64_bigEndian v⟩⟩

theorem bitLength_toNat (t : Word64) : (bitLength t).toNat = (t.toNat * 8) % 2 ^ 64 := by
  rw [bitLength, BitVec.toNat_shiftLeft, Nat.shiftLeft_eq]

/-- Settles O14, from the values of the two operations. -/
theorem lengthsWrap : Obligations.LengthsWrap := ⟨lengthAdd_toNat, bitLength_toNat⟩

end Sys2Proof.Machine
end

section
/-! PROOFS. The compression core (R110 to R120): the sequencer's statements O17 to O19, and O16, for which the window of the
interleaved form is shown to be a slice of the schedule before every round. -/

namespace Sys2Proof.Machine

/-- Settles O17, from the one update that a round makes. -/
theorem roundAssignments : Obligations.RoundAssignments := by
  intro s hi
  simp only [seqRound_lt s hi, roundWork, rotateWork, temp1, temp2, and_self]

/-- Settles O18, from the registers that INITWORK and FEEDBACK write. -/
theorem workLoadedAndFedBack : Obligations.WorkLoadedAndFedBack := fun s =>
  ⟨⟨congrArg Ephemeral.work (seqInitWork_eph s), seqInitWork_hash s⟩, seqFeedback_hash s⟩

/-- Settles O19: what COMPRESS on the machine can write, with the value it leaves in H. -/
theorem iterativeMachineComputesCompress : Obligations.IterativeMachineComputesCompress := by
  intro blk s
  obtain ⟨h, e, hwrites, hbitLen⟩ := compressBlock_writes blk s
  have hhash : h = compress s.hash blk := by rw [← compressBlock_hash, hwrites]
  exact ⟨e, hbitLen, hhash ▸ hwrites⟩

/-- A word of the schedule is made from words before it only (R132). -/
theorem expandedWord_set (w : Vector Word 64) (x : Word) (j : Fin 48) (i : Nat) (hi : i < 64) (hji : j.val + 16 ≤ i) :
    expandedWord (w.set i x) j = expandedWord w j := by
  simp (disch := omega) only [expandedWord, Vector.getElem_set_ne]

theorem expandWords_loaded (w : Vector Word 64) (n : Nat) (hn : n ≤ 48) (j : Nat) (hj : j < 16) :
    (expandWords n hn w)[j] = w[j] := by
  induction n with
  | zero => rfl
  | succ n ih => rw [expandWords, Vector.getElem_set_ne _ _ (by omega), ih]

/-- The recurrence of R132 holds of every word made so far: the expansions after it do not change what it was made from. -/
theorem expandWords_expanded (w : Vector Word 64) (n : Nat) (hn : n ≤ 48) (j : Nat) (hj : j < n) :
    (expandWords n hn w)[j + 16] = expandedWord (expandWords n hn w) ⟨j, by omega⟩ := by
  induction n with
  | zero => omega
  | succ n ih =>
    rw [expandWords, expandedWord_set _ _ _ _ _ (by simp; omega)]
    rcases Nat.lt_succ_iff_lt_or_eq.1 hj with hlt | rfl
    · rw [Vector.getElem_set_ne _ _ (by omega), ih (by omega) hlt]
    · rw [Vector.getElem_set_self]

/-- Words 0 to 15 of SCHED (R131). -/
theorem sched_loaded (blk : Block) (old : Vector Word 64) (j : Nat) (hj : j < 16) :
    (sched blk old)[j] = blockWord blk ⟨j, hj⟩ := by
  rw [sched, expandWords_loaded _ _ _ _ hj, loadWords_getElem, dif_pos hj]

/-- Words 16 to 63 of SCHED (R132). -/
theorem sched_expanded (blk : Block) (old : Vector Word 64) (j : Nat) (hj : j < 48) :
    (sched blk old)[j + 16] = expandedWord (sched blk old) ⟨j, hj⟩ :=
  expandWords_expanded _ 48 _ j hj

/-- The 16 schedule words from place k on, as a window holds them (R134). -/
def windowAt (w : Vector Word 64) (k : Nat) (hk : k ≤ 48) : Window := Vector.ofFn fun j => w[k + j.val]

@[simp] theorem windowAt_getElem (w : Vector Word 64) (k : Nat) (hk : k ≤ 48) (j : Nat) (hj : j < 16) :
    (windowAt w k hk)[j] = w[k + j] := by
  simp [windowAt]

/-- LOAD leaves the first 16 words of the schedule in the window (R118, R131). -/
theorem windowOf_eq_windowAt (blk : Block) : windowOf blk = windowAt (schedule blk) 0 (by omega) := by
  ext j hj : 1
  simp [windowOf, schedule, sched_loaded _ _ j hj]

/-- One shift of a window on the schedule moves it one place on: the word that enters is the schedule's (R132, R134). -/
theorem windowShift_windowAt (blk : Block) (k : Nat) (hk : k < 48) :
    windowShift (windowAt (schedule blk) k (by omega)) = windowAt (schedule blk) (k + 1) (by omega) := by
  ext j hj : 1
  rw [windowAt_getElem]
  rcases Nat.lt_succ_iff_lt_or_eq.1 hj with hlt | rfl
  · simp only [windowShift_getElem _ j hlt, windowAt_getElem, Nat.add_right_comm k 1 j, Nat.add_assoc]
  · have hnext := sched_expanded blk (Vector.replicate 64 0) k hk
    simp only [windowShift_newest, windowNext, windowAt_getElem, Nat.add_assoc]
    exact hnext.symm

/-- Round n of the interleaved form is round n on the schedule. Its window starts at word 0 up to round 15, where n - 16 is
0, and at word n - 16 from round 16 on (R118, R134). -/
theorem interleavedRound_windowAt (blk : Block) (v : Work) (n : Nat) (hn : n < 64) :
    interleavedRound n hn (windowAt (schedule blk) (n - 16) (by omega), v) =
      (windowAt (schedule blk) (n + 1 - 16) (by omega), roundWork v roundConstants[n] (schedule blk)[n]) := by
  by_cases h : n < 16
  · have hstart : n - 16 = 0 := by omega
    have hnext : n + 1 - 16 = 0 := by omega
    simp [interleavedRound, h, hstart, hnext]
  · obtain ⟨k, rfl⟩ : ∃ k, n = k + 16 := ⟨n - 16, by omega⟩
    have hnext : k + 16 + 1 - 16 = k + 1 := by omega
    simp only [interleavedRound, h, dif_neg, not_false_eq_true, Nat.add_sub_cancel, hnext,
      windowShift_windowAt blk k (by omega), windowAt_getElem, Nat.add_assoc]

/-- The first n rounds of the interleaved form are the first n rounds on the whole schedule (R120). -/
theorem interleaved_eq_roundsWork (blk : Block) (v : Work) (n : Nat) (hn : n ≤ 64) :
    interleaved n hn (windowOf blk, v) =
      (windowAt (schedule blk) (n - 16) (by omega), roundsWork (schedule blk) n hn v) := by
  induction n with
  | zero => rw [windowOf_eq_windowAt]; rfl
  | succ n ih => rw [interleaved, ih, interleavedRound_windowAt, roundsWork]

/-- Settles O16, from the equality of the two forms after all 64 rounds. -/
theorem interleavedCompressAgrees : Obligations.InterleavedCompressAgrees := by
  intro hin blk
  rw [compressInterleaved, interleaved_eq_roundsWork, compress]

end Sys2Proof.Machine
end

section
/-! PROOFS. The message scheduler (R130 to R132): the statement O15. -/

namespace Sys2Proof.Machine

/-- Settles O15: the loaded words are the block's, and at i = 16 + j an expanded word is made from the words the recurrence
of R132 names. -/
theorem schedulerRecurrence : Obligations.SchedulerRecurrence := by
  intro blk old
  refine ⟨fun j hj => by rw [sched_loaded _ _ j hj, blockWord], fun i hi16 hi => ?_⟩
  obtain ⟨j, rfl⟩ : ∃ j, i = j + 16 := ⟨i - 16, by omega⟩
  obtain ⟨h15, h7, h2⟩ : j + 16 - 15 = j + 1 ∧ j + 16 - 7 = j + 9 ∧ j + 16 - 2 = j + 14 := by omega
  rw [sched_expanded _ _ j (by omega)]
  simp only [expandedWord, Nat.add_sub_cancel, h15, h7, h2]

end Sys2Proof.Machine
end

section
/-! PROOFS. The streaming commands (R140 to R147): what INIT leaves (O21, O22), what ABSORB leaves by the closed form of absorb
(O23 to O28), and that every step keeps the invariant of R31 (O43). -/

namespace Sys2Proof.Machine

/-- Settles O43: a step waits, or takes a command from CMD, of which the invariant does not speak, and executes it. -/
theorem stepKeepsInvariant : Obligations.StepKeepsInvariant := by
  intro s t hs h
  cases hd : decode s.cmd with
  | wait =>
    obtain rfl : s = t := Host.Outcome.next.inj ((step_of_wait hd).symm.trans h)
    exact ⟨hs, id⟩
  | command i rest =>
    rw [step_of_command hd] at h
    exact exec_keeps_invariant (s := consume rest s) hs h

theorem exec_init_of_unfaulted {s : State} (h : s.phase ≠ .faulted) :
    exec .init s = .next (respond 0x00 [] (freshDigest s)) := by
  rw [exec_init]
  cases hp : s.phase with
  | absorbing => simp only [execInit, hp, initRefusal, statusOk]
  | finalized => simp only [execInit, hp, initRefusal, statusOk]
  | faulted => exact absurd hp h

/-- Settles O21: INIT is refused in FAULTED only, and else makes a fresh Digest State. -/
theorem initCreatesFreshDigest : Obligations.InitCreatesFreshDigest := fun _ =>
  ⟨fun h => ⟨_, _, exec_init_of_unfaulted h⟩, fun h => ⟨_, _, exec_of_faulted rfl h⟩⟩

/-- Settles O22: with an empty buffer no byte of BUF is valid, so a fresh Digest State is the one that was there. -/
theorem initRedundantOnFreshState : Obligations.InitRedundantOnFreshState := by
  intro s hphase hhash hlen htotal
  refine ⟨_, exec_init_of_unfaulted (by simp [hphase]), ?_⟩
  have hvalid := valid_of_bufLen_zero s hlen
  rw [respond_persistent, freshDigest_persistent]
  simp [Persistent.fresh, State.persistent, hphase, hhash, hlen, htotal, hvalid]

theorem exec_absorb_of_absorbing {s : State} (p : List Byte) (h : s.phase = .absorbing) :
    exec (.absorb p) s = .next (respond 0x00 [] (absorb p s)) := by
  simp only [exec_absorb, execAbsorb, h, absorbRefusal, statusOk]

theorem blocksOf_length (p : List Byte) : (blocksOf p).length = p.length / 64 := by
  induction p using blocks_induction with
  | short p h => rw [blocksOf_short p h, List.length_nil, Nat.div_eq_of_lt h]
  | block p h ih =>
    rw [blocksOf_cons p h, List.length_cons, ih, List.length_drop]
    omega

/-- Settles O23, from the closed form of absorb. -/
theorem absorbAppendsToMessage : Obligations.AbsorbAppendsToMessage := by
  intro s p hphase _
  refine ⟨_, exec_absorb_of_absorbing p hphase, ?_, absorb_hash p s, absorb_bufLen p s, absorb_valid p s,
    absorb_totalLength p s, (absorb_phase p s).trans hphase, absorb_cmd p s, ?_⟩
  · rw [blocksOf_length, List.length_append, valid_length]
  · rw [respond_rsp, absorb_rsp]

theorem appendBuf_nil (s : State) : appendBuf [] s = s := by simp [appendBuf]

theorem clearBuf_of_empty {s : State} (h : s.bufLen = 0) : clearBuf s = s := by
  rw [clearBuf, ← h]

/-- Into an empty buffer step 4 is one write, of no byte where there is no tail (R142). -/
theorem storeTail_of_empty (r : List Byte) {s : State} (h : s.bufLen = 0) : storeTail r s = appendBuf r s := by
  unfold storeTail
  split
  next hnil => rw [hnil, appendBuf_nil]
  next => rw [clearBuf_of_empty h]

theorem absorbDirect_short (n : Nat) {p : List Byte} (s : State) (h : p.length < 64) : absorbDirect n p s = (s, p) := by
  cases n with
  | zero => rfl
  | succ n => rw [absorbDirect, dif_neg (by omega)]

/-- A payload that does not fill a partial buffer is used up by step 2 (R142). -/
theorem fillPartial_short {p : List Byte} {s : State} (h0 : s.bufLen ≠ 0) (h : s.bufLen.val + p.length < 64) :
    fillPartial p s = (appendBuf p s, []) := by
  have hm : min (64 - s.bufLen.val) p.length = p.length := by omega
  have hlen : (appendBuf p s).bufLen.val = s.bufLen.val + p.length := appendBuf_bufLen_val p s (by omega)
  have hnotFull : (appendBuf p s).bufLen ≠ 64 := fun hfull => by
    have hval : (appendBuf p s).bufLen.val = 64 := congrArg Fin.val hfull
    omega
  rw [fillPartial, if_neg h0]
  simp only [hm, memRead_zero, List.take_length, List.drop_length, drainFull, if_neg hnotFull]

/-- With less than a block left after step 2, step 3 does nothing (R142). -/
theorem absorb_of_fillPartial {p q : List Byte} {s t : State} (h : fillPartial p (addLength p.length s) = (t, q))
    (hq : q.length < 64) : absorb p s = storeTail q t := by
  simp only [absorb, h, absorbDirect_short _ _ hq]

/-- A payload that completes no block is counted and written behind the valid bytes, and nothing else happens (R142). -/
theorem absorb_short {p : List Byte} {s : State} (h : s.bufLen.val + p.length < 64) :
    absorb p s = appendBuf p (addLength p.length s) := by
  by_cases h0 : s.bufLen = 0
  · have hfill : fillPartial p (addLength p.length s) = (addLength p.length s, p) := if_pos h0
    rw [absorb_of_fillPartial hfill (by omega)]
    exact storeTail_of_empty p h0
  · have hfill : fillPartial p (addLength p.length s) = (appendBuf p (addLength p.length s), []) :=
      fillPartial_short h0 h
    rw [absorb_of_fillPartial hfill (by simp)]
    exact if_pos rfl

/-- Settles O24: the payload is one MemWrite at BUF[BUFLEN], which says what every byte of BUF is. -/
theorem absorbStoresShortPayload : Obligations.AbsorbStoresShortPayload := by
  intro s p hphase h
  refine ⟨_, exec_absorb_of_absorbing p hphase, ?_⟩
  rw [absorb_short h]
  refine ⟨rfl, appendBuf_bufLen_val p (addLength p.length s) (Nat.le_of_lt h), fun j hj hb => ?_, fun k hk hout => ?_⟩
  · simp [memWrite_getElem, hj]
  · simp only [respond_buf, appendBuf_buf, addLength_buf, addLength_bufLen, memWrite_getElem]
    exact dif_neg (by omega)

/-- The two ways an ABSORB ends: accepted, or refused with one status byte (R141). -/
theorem exec_absorb_cases {p : List Byte} {s t : State} (h : exec (.absorb p) s = .next t) :
    (s.phase = .absorbing ∧ t = respond 0x00 [] (absorb p s)) ∨ (s.phase ≠ .absorbing ∧ ∃ c, t = respond c [] s) := by
  cases hp : s.phase with
  | absorbing => exact .inl ⟨rfl, Host.Outcome.next.inj (h.symm.trans (exec_absorb_of_absorbing p hp))⟩
  | finalized => exact .inr ⟨nofun, _, Host.Outcome.next.inj (h.symm.trans (exec_of_finalized rfl nofun hp))⟩
  | faulted => exact .inr ⟨nofun, _, Host.Outcome.next.inj (h.symm.trans (exec_of_faulted rfl hp))⟩

/-- Settles O25, for the two ways an ABSORB ends. -/
theorem absorbFrame : Obligations.AbsorbFrame := by
  intro s t p h
  obtain ⟨hp, rfl⟩ | ⟨hp, c, rfl⟩ := exec_absorb_cases h
  · exact ⟨absorb_phase p s, absorb_cmd p s, ⟨0x00, by rw [respond_rsp, absorb_rsp]⟩, fun hne => absurd hp hne⟩
  · exact ⟨rfl, rfl, ⟨c, rfl⟩, fun _ => ⟨rfl, rfl, rfl, rfl⟩⟩

/-- R146: the empty sequence completes no block, counts nothing and writes nothing. -/
theorem absorb_nil {s : State} (h : s.bufLen.val ≤ 63) : absorb [] s = s := by
  have hcount : addLength 0 s = s := by simp [addLength, lengthAdd]
  rw [absorb_short (by simp; omega), List.length_nil, hcount, appendBuf_nil]

/-- Settles O26: an accepted ABSORB of no bytes only answers. -/
theorem zeroBytesAbsorbedChangeNothing : Obligations.ZeroBytesAbsorbedChangeNothing := by
  intro s hlen
  refine ⟨absorb_nil hlen, fun hphase => ?_⟩
  rw [exec_absorb_of_absorbing [] hphase, absorb_nil hlen]
  exact ⟨_, _, rfl⟩

/-- Settles O27: BUFLEN after absorb is a remainder modulo 64. -/
theorem bufferDrainedAtOnce : Obligations.BufferDrainedAtOnce := by
  intro s p
  rw [absorb_bufLen]
  omega

/-- R147 on the architectural part: the payloads one after another are one absorb of their concatenation. -/
theorem foldl_absorb_persistent (chunks : List (List Byte)) (s : State) (h : s.bufLen.val ≤ 63) :
    (chunks.foldl (fun t p => absorb p t) s).persistent = s.persistent.absorb chunks.flatten := by
  induction chunks generalizing s with
  | nil => rw [List.flatten_nil, ← absorb_persistent, absorb_nil h, List.foldl_nil]
  | cons c chunks ih =>
    rw [List.foldl_cons, ih _ (bufferDrainedAtOnce s c).1, absorb_persistent, Persistent.absorb_absorb,
      List.flatten_cons]

/-- What a command answers depends on the architectural part alone (R36, R37). -/
theorem response_exec_congr (s : State) (i : Instr) {t u : State} (h : t.persistent = u.persistent) :
    response s (exec i t) = response s (exec i u) := by
  obtain ⟨t', u', ht, hu, hpersistent⟩ := exec_persistent_congr i h
  have hrsp : t'.rsp = u'.rsp := congrArg Persistent.rsp hpersistent
  simp only [ht, hu, response, hrsp]

/-- Settles O28: the two states agree in their architectural part, and FINAL reads nothing else. -/
theorem chunkingInvariance : Obligations.ChunkingInvariance := by
  intro s chunks h
  have hsame : (chunks.foldl (fun t p => absorb p t) s).persistent = (absorb chunks.flatten s).persistent := by
    rw [foldl_absorb_persistent chunks s h, absorb_persistent]
  exact ⟨hsame, response_exec_congr s .final hsame⟩

end Sys2Proof.Machine
end

section
/-! PROOFS. The finalizer (R160 to R170): the zero count (O31), the last block or blocks (O30), what FINAL leaves (O29), and that
then only INIT changes the Digest State (O40). -/

namespace Sys2Proof.Machine

/-- Settles O31: the zero count in closed form leaves arithmetic on the remainder modulo 64. -/
theorem zeroFillClosedForm : Obligations.ZeroFillClosedForm := by
  intro t
  have hz := zeroCount_lengthAdd_one t
  dsimp only
  refine ⟨hz, ?_⟩
  omega

/-- A sequence that begins with 64 bytes has them as its first block. -/
theorem blocksOf_append_toList (p q : List Byte) (h : p.length = 64) :
    (blocksOf (p ++ q)).map Vector.toList = p :: (blocksOf q).map Vector.toList := by
  have hlen : 64 ≤ (p ++ q).length := by simp; omega
  rw [blocksOf_cons _ hlen, List.map_cons, blockOf_toList, List.take_left' h, List.drop_left' h]

theorem blocksOf_toList_of_length (p : List Byte) (h : p.length = 64) : (blocksOf p).map Vector.toList = [p] := by
  simpa [blocksOf_short] using blocksOf_append_toList p [] h

/-- Where the bit length still fits behind the 0x80 byte, the zeros reach up to it (R170). -/
theorem padding_of_le (l : Nat) (v : Word64) (h : l ≤ 55) :
    padding l v = [0x80] ++ List.replicate (55 - l) 0x00 ++ bytes64 v := by
  have hz : (55 + 64 - l % 64) % 64 = 55 - l := by omega
  rw [padding, hz]
  rfl

/-- Where it does not, the zeros end the block, and 56 more stand before it in the next (R170). -/
theorem padding_of_ge (l : Nat) (v : Word64) (h : 56 ≤ l) (h' : l ≤ 63) :
    padding l v = [0x80] ++ List.replicate (63 - l) 0x00 ++ (List.replicate 56 0x00 ++ bytes64 v) := by
  have hz : (55 + 64 - l % 64) % 64 = (63 - l) + 56 := by omega
  rw [padding, hz, List.replicate_add, List.append_assoc, List.append_assoc]
  rfl

/-- Settles O30: the padding in its two forms, cut where 64 bytes are full. -/
theorem paddingLayout : Obligations.PaddingLayout := by
  intro left bitLen hleft
  refine ⟨fun hle => ?_, fun hge => ?_⟩
  · rw [padding_of_le _ _ hle, ← List.append_assoc, ← List.append_assoc]
    exact blocksOf_toList_of_length _ (by simp; omega)
  · rw [padding_of_ge _ _ hge hleft, ← List.append_assoc, ← List.append_assoc left [0x80],
      blocksOf_append_toList _ _ (by simp; omega), blocksOf_toList_of_length _ (by simp)]

/-- The padding depends on the length modulo 64 only, so BUFLEN gives it as well as TOTAL_LENGTH does (R31, R162). -/
theorem padding_mod_block (l : Nat) (v : Word64) : padding (l % 64) v = padding l v := by
  rw [padding, padding, Nat.mod_mod]

/-- FINAL completes where the padding has drained the buffer (R161, R165). -/
theorem exec_final_of_drained {s : State} (hp : s.phase = .absorbing) (h0 : (padAndAbsorb s).bufLen = 0) :
    exec .final s = .next (respond 0x00 (digestBytes (padAndAbsorb s).hash) (setPhase .finalized (padAndAbsorb s))) := by
  simp only [exec_final, execFinal, hp, finalRefusal, paddingFault, h0, if_true, statusOk]

/-- Settles O29: FINAL absorbs the padding in its closed form, which drains the buffer, and so answers the digest. -/
theorem finalEmitsDigest : Obligations.FinalEmitsDigest := by
  intro s hready
  obtain ⟨hphase, -, hlen⟩ := hready
  obtain ⟨h0, hmod⟩ := padAndAbsorb_drains hlen
  obtain ⟨hhash, -, -, htotal, -⟩ := persistent_fields (padAndAbsorb_eq_absorb s)
  rw [absorb_hash] at hhash
  rw [absorb_totalLength] at htotal
  rw [hlen, padding_mod_block]
  refine ⟨_, exec_final_of_drained hphase h0, ?_⟩
  simpa using ⟨hhash, h0, htotal, hmod⟩

/-- An ILLEGAL command answers 0x01 in every state (R181, R185). -/
theorem exec_of_isIllegal {i : Instr} (hi : i.isIllegal = true) (s : State) : exec i s = .next (respond 0x01 [] s) := by
  obtain ⟨-, h⟩ | ⟨h, -⟩ | ⟨h, -⟩ | ⟨rfl, -⟩ | ⟨p, rfl, -⟩ | ⟨rfl, -⟩ | ⟨rfl, -⟩ := exec_cases i s
  case inl => exact h
  all_goals simp_all [Instr.isIllegal]

/-- In FINALIZED every command but INIT is refused, and its status is all it leaves (R181, R182, R186). -/
theorem exec_finalized_only_answers {i : Instr} {s t : State} (hp : s.phase = .finalized) (hi : i ≠ .init)
    (h : exec i s = .next t) : ∃ c, t = respond c [] s := by
  cases hill : i.isIllegal with
  | true => exact ⟨0x01, Host.Outcome.next.inj (h.symm.trans (exec_of_isIllegal hill s))⟩
  | false => exact ⟨0x02, Host.Outcome.next.inj (h.symm.trans (exec_of_finalized hill hi hp))⟩

/-- Settles O40: a response writes no part of the Digest State. -/
theorem digestImmutableUntilInit : Obligations.DigestImmutableUntilInit := by
  intro i s t hp hi h
  obtain ⟨c, rfl⟩ := exec_finalized_only_answers hp hi h
  exact ⟨rfl, hp, rfl, rfl, rfl⟩

end Sys2Proof.Machine
end

section
/-! PROOFS. The exceptions (R180 to R187): IllegalCommand (O33, O34), UseAfterFinalize (O35), EngineFaulted (O36) and
InternalConsistencyFault (O32). -/

namespace Sys2Proof.Machine

/-- Settles O33: a response writes RSP and what the end of a command writes. -/
theorem illegalCommandTaken : Obligations.IllegalCommandTaken := fun _ s hi =>
  ⟨_, _, exec_of_isIllegal hi s⟩

/-- Settles O34: the byte is not that of a legal command, so the decoder takes it alone, as an ILLEGAL command. -/
theorem illegalByteConsumedAlone : Obligations.IllegalByteConsumedAlone := by
  intro s op q hop hcmd
  have hlegal : op ≠ 0x01 ∧ op ≠ 0x02 ∧ op ≠ 0x03 := by
    refine ⟨?_, ?_, ?_⟩ <;> rintro rfl <;> simp at hop
  obtain ⟨h1, h2, h3⟩ := hlegal
  have hdecode : decode s.cmd = .command (illegalOf op) q := hcmd ▸ decode_illegal op q h1 h2 h3
  rw [step_of_command hdecode]
  exact ⟨_, _, exec_of_isIllegal (illegalOf_isIllegal op) (consume q s)⟩

/-- In FAULTED every command is refused, and its status is all it leaves (R181, R184, R185). -/
theorem exec_faulted_only_answers {i : Instr} {s t : State} (hp : s.phase = .faulted) (h : exec i s = .next t) :
    ∃ c, t = respond c [] s := by
  cases hill : i.isIllegal with
  | true => exact ⟨0x01, Host.Outcome.next.inj (h.symm.trans (exec_of_isIllegal hill s))⟩
  | false => exact ⟨0x04, Host.Outcome.next.inj (h.symm.trans (exec_of_faulted hill hp))⟩

/-- Settles O36: in FAULTED a command only answers, and the reset event is not a command. -/
theorem engineFaultedUntilReset : Obligations.EngineFaultedUntilReset := by
  intro s hp
  refine ⟨fun i hi => ⟨_, _, exec_of_faulted hi hp⟩, fun i t h => ?_, resetEvent_phase s⟩
  obtain ⟨c, rfl⟩ := exec_faulted_only_answers hp h
  exact hp

/-- FINAL raises InternalConsistencyFault where the padding has not drained the buffer (R161, R183). -/
theorem exec_final_of_undrained {s : State} (hp : s.phase = .absorbing) (h0 : (padAndAbsorb s).bufLen ≠ 0) :
    exec .final s = .next (raise .internalConsistencyFault (padAndAbsorb s)) := by
  simp only [exec_final, execFinal, hp, finalRefusal, paddingFault, h0, if_false]

/-- What the raise of InternalConsistencyFault writes: PHASE, RSP, and what the end of a command writes (R186). -/
theorem raise_internalConsistencyFault (s : State) :
    raise .internalConsistencyFault s = { s with
      phase := .faulted
      rsp := s.rsp ++ [0x03]
      eph := Config.freeEphemeral s.freeCount
      freeCount := s.freeCount + 1 } := rfl

/-- Settles O32: the fault is raised on the state the padding left, and the padding emits nothing. -/
theorem internalConsistencyFaultTaken : Obligations.InternalConsistencyFaultTaken := by
  intro s hp h0
  rw [exec_final_of_undrained hp h0, raise_internalConsistencyFault, padAndAbsorb_rsp]
  exact ⟨_, _, rfl⟩

/-- Settles O35: FINALIZED refuses ABSORB and FINAL, and INIT makes a fresh Digest State. -/
theorem useAfterFinalizeTaken : Obligations.UseAfterFinalizeTaken := by
  intro s hp
  refine ⟨fun i p hi => ?_, _, exec_init_of_unfaulted (by simp [hp]), respond_phase .., respond_rsp ..⟩
  obtain rfl | rfl := hi
  · exact ⟨_, _, exec_of_finalized rfl nofun hp⟩
  · exact ⟨_, _, exec_of_finalized rfl nofun hp⟩

end Sys2Proof.Machine
end

section
/-! PROOFS. A run of any moves stays out of FAULTED (O45): each move answers a next run and keeps the invariant of R31. -/

namespace Sys2Proof.Machine

theorem Run.move_host (e : HostEvent) (r : Run) : r.move (.host e) = .next (r.host e) := rfl

theorem Run.move_engine_of_step {r : Run} {s : State} (h : step r.state = .next s) :
    r.move .engine = .next { r with state := s } := by
  simp only [Run.move, h]

theorem Run.moves_nil (r : Run) : r.moves [] = .next r := rfl

theorem Run.moves_cons_of_move {m : Move} {ms : List Move} {r r' : Run} (h : r.move m = .next r') :
    r.moves (m :: ms) = r'.moves ms := by
  simp only [Run.moves, h]

/-- One move, of the host (O44) or of the engine (O41, O43). -/
theorem Run.move_keeps_safe (m : Move) {r : Run} (hr : Safe r.state) : ∃ r', r.move m = .next r' ∧ Safe r'.state := by
  obtain ⟨hinv, hphase⟩ := hr
  cases m with
  | host e =>
    obtain ⟨hkeep, hunfaulted, -⟩ := hostEventsKeepInvariant e r
    exact ⟨r.host e, r.move_host e, hkeep hinv, hunfaulted hphase⟩
  | engine =>
    obtain ⟨t, ht⟩ := everyCommandAnswersNextState.2 r.state
    obtain ⟨hkeep, hunfaulted⟩ := stepKeepsInvariant r.state t hinv ht
    exact ⟨{ r with state := t }, Run.move_engine_of_step ht, hkeep, hunfaulted hphase⟩

/-- Settles O45, by induction on the moves. -/
theorem everyRunStaysSafe : Obligations.EveryRunStaysSafe := by
  intro ms
  induction ms with
  | nil => exact fun r hr => ⟨r, r.moves_nil, hr⟩
  | cons m ms ih =>
    intro r hr
    obtain ⟨r₁, hmove, hr₁⟩ := Run.move_keeps_safe m hr
    rw [Run.moves_cons_of_move hmove]
    exact ih r₁ hr₁

end Sys2Proof.Machine
end
